-- ==== Sys2Proof/Syntax.lean ====
section
/-! DEFINITION. The instructions: one constructor for the one row of spec/opcode_table.json (R58). -/

namespace Sys2Proof

/-- The base operand `<Xn|SP>` (R55): `X0` to `X30`, or the stack pointer, which is what the field value 31 names.
It is never a zero register. -/
inductive BaseReg where
  | x (n : Nat)
  | sp
deriving DecidableEq, Repr

/-- The instructions of the spec.

`st2b zt pg base off` is `ST2B (scalar plus immediate)` (R63): `zt` is the number of the first vector register (the
second is `(zt + 1) mod 32` and is not encoded, R54), `pg` the number of the governing predicate (R56), `base` the
base register (R55) and `off` the signed value of `imm4` (R53; the assembler's `<imm>` is `2 * off`). -/
inductive Instr where
  | st2b (zt : Nat) (pg : Nat) (base : BaseReg) (off : Int)
deriving DecidableEq, Repr

end Sys2Proof
end

