-- ==== Sys2Proof/Word.lean ====
section
/-! DEFINITION. The word types of the model (spec/00_scope.md R7, R9: addresses, `x[i]`, `sp` and `pc` are 64 bits,
an instruction is a 32-bit word, stored units are 8 bits). -/

namespace Sys2Proof

/-- A stored unit: 8 bits (R31). -/
abbrev Byte := BitVec 8

/-- A 64-bit byte address, also the width of `x[i]`, `sp` and `pc` (R9, R15, R16, R17, R24). -/
abbrev Addr := BitVec 64

/-- An instruction word: bit 31 is the most significant (R7, R49). -/
abbrev Word32 := BitVec 32

/-- The contents of a scalable register, as an unbounded container of bits: bit `i` is the number's bit `i`.
It is read only through its low `VL` or low `PL` bits (R20, R21, R22), so that every vector length the spec
permits (any positive multiple of 8, R5) is covered. Log 8. -/
abbrev ScalableBits := Nat

end Sys2Proof
end

