-- ==== Sys2Proof/Decode.lean ====
section
/-! DEFINITION. Decoding an instruction word (spec/30_encoding.md R51 to R60), and after it the encoder, written from
the same diagram (R51, R62). -/

namespace Sys2Proof

/-! ## Words and bytes -/

/-- The field `word[hi:lo]` (R7). -/
def field (w : Word32) (hi lo : Nat) : BitVec (hi - lo + 1) :=
  w.extractLsb hi lo

/-- A word from its four bytes, lowest address first: instructions are little-endian (R35, D1; log 23). -/
def wordOfBytes (b0 b1 b2 b3 : Byte) : Word32 :=
  b3 ++ b2 ++ b1 ++ b0

/-- The four bytes of a word, lowest address first (R35, D1; log 23). -/
def bytesOfWord (w : Word32) : List Byte :=
  [w.extractLsb 7 0, w.extractLsb 15 8, w.extractLsb 23 16, w.extractLsb 31 24]

/-! ## Decode -/

/-- Why bytes are not an instruction of the spec. -/
inductive DecodeError where
  /-- The word does not match the one encoding: `NotInSpec` (R60), which is not UNDEFINED and not a no-op. -/
  | notInSpec (word : Word32)
  /-- These are not the four bytes every instruction has (R49). -/
  | notFourBytes (count : Nat)
deriving DecidableEq, Repr

/-- The fixed bit positions 31:20 and 15:13 (R52). -/
def st2bMask : Word32 := 0xFFF0E000

/-- The fixed bits of R51 in place (R52). -/
def st2bMatch : Word32 := 0xE430E000

/-- The register that `Rn` names (R55): 31 is the stack pointer. -/
def decodeBase (rn : Nat) : BaseReg :=
  if rn = 31 then .sp else .x rn

/-- Decode of one word (R52): on a match the fields are bound as `t`, `n`, `g` and the signed `off`; any other word is
`NotInSpec` (R60). The feature test that the page also writes in its decode stands in the meaning (R64; log 24). -/
def decodeWord (w : Word32) : Except DecodeError Instr :=
  if w &&& st2bMask = st2bMatch then
    .ok (.st2b (field w 4 0).toNat (field w 12 10).toNat (decodeBase (field w 9 5).toNat) (field w 19 16).toInt)
  else
    .error (.notInSpec w)

/-- Decode of bytes as they lie in memory, lowest address first (R35, R49). -/
def decodeBytes : List Byte → Except DecodeError Instr
  | [b0, b1, b2, b3] => decodeWord (wordOfBytes b0 b1 b2 b3)
  | bs => .error (.notFourBytes bs.length)

/-! ## Encode -/

/-- The number of the base operand in `Rn` (R55, R62). -/
def encodeBase : BaseReg → Nat
  | .x n => n
  | .sp => 31

/-- The word with the four fields given, its pieces from bit 31 down to bit 0 as the rows of R51 give them: fixed `111`,
fixed `0010`, `msz` `00`, `opc` `01` (R57), fixed `1`, `imm4`, fixed `111`, `Pg`, `Rn`, `Zt`. -/
def packSt2b (imm4 : BitVec 4) (pg : BitVec 3) (rn zt : BitVec 5) : Word32 :=
  0b111#3 ++ 0b0010#4 ++ 0b00#2 ++ 0b01#2 ++ 0b1#1 ++ imm4 ++ 0b111#3 ++ pg ++ rn ++ zt

/-- The word of an instruction (R51, R62). It is meant for well-formed instructions; an operand out of range is reduced
to its field's width. -/
def encode : Instr → Word32
  | .st2b zt pg base off =>
    packSt2b (BitVec.ofInt 4 off) (BitVec.ofNat 3 pg) (BitVec.ofNat 5 (encodeBase base)) (BitVec.ofNat 5 zt)

/-- The bytes of an instruction, lowest address first (R35). -/
def encodeBytes (i : Instr) : List Byte :=
  bytesOfWord (encode i)

/-! ## The opcode table's numbering -/

/-- The instruction word whose low `nbits` bits are `w` and whose other bits are 0. -/
def tableWord (nbits w : Nat) : Word32 :=
  BitVec.ofNat 32 (w % 2 ^ nbits)

/-- The instruction the decoder reads from the word `w` of `nbits` bits, laid out in memory as its bytes. -/
def decodeTableWord (nbits w : Nat) : Option Instr :=
  match decodeBytes (bytesOfWord (tableWord nbits w)) with
  | .ok i => some i
  | .error _ => none

end Sys2Proof
end

