-- ==== Sys2Proof/Config.lean ====
section
/-! DEFINITION. The configuration the spec takes as parameters (spec/00_scope.md R5, R6; spec/10_state.md R19), as plain
data, and the one free value of a step. What the data means (`MemAdmit`, the lookup in `ProgramText`) is in
Sys2Proof/Machine/. -/

namespace Sys2Proof

/-- The outcome of `CheckSVEEnabled()` in the current configuration (R6, R65, D7). -/
inductive SveAccess where
  | ok
  | trap
deriving DecidableEq, Repr

/-- The memory operation of an access descriptor: a store is the only one the spec has (R13, R40). -/
inductive MemOp where
  | store
deriving DecidableEq, Repr

/-- `AccessDescriptor` (R13, R40): one constant and four booleans. It is read nowhere but in `MemAdmit`. -/
structure AccDesc where
  op : MemOp
  nontemporal : Bool
  contiguous : Bool
  predicated : Bool
  tagchecked : Bool
deriving DecidableEq, Repr

/-- The answer of `MemAdmit` (R6, D11). -/
inductive Admit where
  | ok
  | fault
deriving DecidableEq, Repr

/-- One entry of the table that holds `MemAdmit`: an access with exactly the descriptor `desc` to an address from
`first` to `last`, both included, is refused. Log 7: every function of an address and a descriptor is some table. -/
structure RefusedRange where
  first : Addr
  last : Addr
  desc : AccDesc
deriving DecidableEq, Repr

/-- `ProgramText` (R6, R25, R100): a finite map from 4-byte-aligned addresses to 32-bit words, as pairs with the
addresses strictly rising. -/
abbrev ProgramText := List (Nat × Word32)

/-- The configuration of R19 and R6: fixed for a run (D6), written by no instruction (R19). -/
structure Config where
  /-- `FEAT_SVE` (R5). -/
  featSve : Bool
  /-- `FEAT_SME` (R5). -/
  featSme : Bool
  /-- `VL`, the current vector length in bits: a positive multiple of 8 (R5). -/
  vl : Nat
  /-- `SveAccess` (R6, D7). -/
  sveAccess : SveAccess
  /-- `SpAlignCheck` (R6, D8). -/
  spAlignCheck : Bool
  /-- `MemAdmit` (R6, D11), as the table of what it refuses: everything else is admitted. -/
  memRefused : List RefusedRange
  /-- `ProgramText` (R6, D3). -/
  programText : ProgramText
deriving DecidableEq, Repr

/-- FREE VALUE (DESIGN CHOICE, log 10). `Config.checkSpNoneActive n` is the boolean that
`ConstrainUnpredictableBool(Unpredictable_CHECKSPNONEACTIVE)` returns at the `n`-th draw of a run (R68, D9, U1).
It has no body: no proof can rest on either value. -/
opaque Config.checkSpNoneActive : Nat → Bool

end Sys2Proof
end

