-- ==== Sys2Proof/Machine/State.lean ====
section
/-! DEFINITION. The state of the machine (spec/10_state.md R15 to R30; spec/92_eei_decisions.md D13: exactly `x`, `sp`,
`pc`, `z`, `p`, memory and the recorded outcome, under the configuration of R19), the reasons a step stops
(spec/60_exceptions.md R81 to R86), and the state after reset. -/

namespace Sys2Proof.Machine

/-- A register an instruction reads, as `UnwrittenRegister` names it (R29, R86). -/
inductive RegName where
  | x (n : Nat)
  | sp
  | z (n : Nat)
  | p (n : Nat)
deriving DecidableEq, Repr

/-- The fault kinds of R81: the machine stops, registers and `pc` as they were (R91). Each is safe: nothing is claimed
of a run that faults. -/
inductive Fault where
  /-- The word is ST2B and the implementation has neither `FEAT_SVE` nor `FEAT_SME` (R64, R82). Raised by the feature
  test of ST2B. Safe: the spec names this fault. -/
  | undefined
  /-- `CheckSVEEnabled()` does not let the instruction run: `SveAccess = trap` (R65, R83). Raised by ST2B. Safe. -/
  | sveAccessTrap
  /-- The stack pointer is the base, the check is made and on, and `sp` is no multiple of 16 (R68, R84). Raised by
  ST2B. Safe. -/
  | spAlignmentFault
  /-- The memory system refuses the byte store of an active structure at `addr` (R71, R85). Raised by ST2B. Safe: the
  bytes it may have stored are unspecified (R88). -/
  | dataAbort (addr : Addr)
  /-- The step starts with `pc[1:0] ≠ 0` (R38, R86). Raised by the fetch. Safe: the spec's own refusal to go on. -/
  | pcAlignment
  /-- The instruction reads a register to which the launch state gave no value (R29, R86). Raised by ST2B. Safe; it
  cannot happen from `State.reset`, which gives every register a value (log 11). -/
  | unwrittenRegister (r : RegName)
deriving DecidableEq, Repr

/-- The refusal kinds of R81, and the model's answer where there is no step. All are safe: the model claims nothing. -/
inductive Refusal where
  /-- An instruction of the table without a meaning. Raised by `exec` only; no arm of this model raises it. Safe. -/
  | notModelled (mnemonic : String)
  /-- The fetched word is not the one encoding of the spec (R60, R86). Raised by the step. Safe. -/
  | notInSpec (word : Word32)
  /-- An active byte's address lies in a word of `ProgramText` (R48, R86). Raised by ST2B. Safe. -/
  | storeToProgramText (addr : Addr)
  /-- The state is final: `pc` is aligned and outside `ProgramText`, so there is no step (R50, R101; log 12). Raised
  by the fetch. Safe: the run is over, nothing is said of what a chip fetches there. -/
  | endOfRun
deriving DecidableEq, Repr

/-- What stops a step: a fault or a refusal. It is also what a stopped run has recorded (R81). -/
inductive Stop where
  | fault (k : Fault)
  | refuse (r : Refusal)
deriving DecidableEq, Repr

/-- Data memory (R24, R42): the listed bytes, addresses strictly rising, no listed byte equal to what an unlisted
address reads as (`Sys2Proof.Machine.Memory.wf`). -/
abbrev Memory := List Host.Cell

/-- The state. A register is an `Option` because the spec gives it a state in which it holds no value (R29): a launch
state may leave it so. `State.reset` gives every register a value (log 1, log 11). -/
structure State where
  /-- The configuration (R19), fixed for a run (D6). -/
  cfg : Config
  /-- `X0` to `X30` (R15). -/
  x : Vector (Option Addr) 31
  /-- The stack pointer (R16). -/
  sp : Option Addr
  /-- The program counter (R17). -/
  pc : Addr
  /-- `Z0` to `Z31`, read through the low `VL` bits (R20, R22). -/
  z : Vector (Option ScalableBits) 32
  /-- `P0` to `P7`, read through the low `PL` bits (R21, R22). -/
  p : Vector (Option ScalableBits) 8
  /-- Data memory (R24). -/
  mem : Memory
  /-- The model's own counter of CHECKSPNONEACTIVE draws (log 10). -/
  draws : Nat
  /-- The recorded outcome: set once the run has stopped with a fault or a refusal, never cleared (R81, D13). -/
  recorded : Option Stop
deriving DecidableEq, Repr

/-- The configuration at reset: every value DESIGN CHOICE (log 3), the default set-up of spec/95_test_vectors.md;
`ProgramText` is empty (log 5). -/
def resetConfig : Config where
  featSve := true
  featSme := false
  vl := 128
  sveAccess := .ok
  spAlignCheck := true
  memRefused := []
  programText := []

/-- The machine after reset. The spec gives no reset value of anything (R28, R98): every register is 0 (DESIGN
CHOICE, log 1), `pc` is 0 (DESIGN CHOICE, log 2), memory lists nothing (log 4), no draw has been made (log 10) and
nothing is recorded. -/
def State.reset : State where
  cfg := resetConfig
  x := .replicate 31 (some 0)
  sp := some 0
  pc := 0
  z := .replicate 32 (some 0)
  p := .replicate 8 (some 0)
  mem := []
  draws := 0
  recorded := none

end Sys2Proof.Machine
end

