-- ==== Sys2Proof/Machine/Memory.lean ====
section
/-! DEFINITION. Data memory, `MemAdmit` and `ProgramText` as plain data, and the operations over them
(spec/20_memory.md; spec/00_scope.md R6, R13). -/

namespace Sys2Proof

/-! ## The program text (R25, R100) -/

/-- The word at an address, if the address is in the domain (R50). -/
def ProgramText.wordAt : ProgramText → Nat → Option Word32
  | [], _ => none
  | (k, w) :: rest, a => if a = k then some w else ProgramText.wordAt rest a

/-- Whether a byte address lies in a 4-byte word the text covers: `(a - a mod 4) in dom ProgramText` (R48, R63). -/
def ProgramText.covers (t : ProgramText) (a : Addr) : Bool :=
  (t.wordAt (a.toNat - a.toNat % 4)).isSome

/-- The text with one more word, addresses kept strictly rising. The host builds texts so before a run (R107). -/
def ProgramText.put (a : Nat) (w : Word32) : ProgramText → ProgramText
  | [] => [(a, w)]
  | (k, v) :: rest =>
    if a < k then (a, w) :: (k, v) :: rest
    else if a = k then (a, w) :: rest
    else (k, v) :: ProgramText.put a w rest

/-- The usual text of R100: the words at `b, b + 4, ...`, addresses taken mod `2^64`. -/
def ProgramText.block (b : Addr) : List Word32 → ProgramText
  | [] => []
  | w :: ws => ProgramText.put b.toNat w (ProgramText.block (b + 4) ws)

/-- The canonical form from an address on: strictly rising multiples of 4 below `2^64`. -/
def ProgramText.wfFrom (lo : Nat) : ProgramText → Bool
  | [] => true
  | (k, _) :: rest =>
    decide (lo ≤ k) && decide (k < 2 ^ 64) && decide (k % 4 = 0) && ProgramText.wfFrom (k + 1) rest

/-- A finite map from 4-byte-aligned 64-bit addresses to words (R6, R100). -/
def ProgramText.wf (t : ProgramText) : Bool :=
  t.wfFrom 0

/-! ## The admission parameter (R6, R44, D11) -/

/-- Whether an entry of the table refuses this access. -/
def RefusedRange.refuses (r : RefusedRange) (a : Addr) (d : AccDesc) : Bool :=
  decide (r.first.toNat ≤ a.toNat) && decide (a.toNat ≤ r.last.toNat) && decide (r.desc = d)

/-- `MemAdmit(addr, accdesc)` (R6, R44): a function of the address and the descriptor, fixed for the run, independent
of the data. -/
def Config.memAdmit (cfg : Config) (a : Addr) (d : AccDesc) : Admit :=
  if cfg.memRefused.any (fun r => r.refuses a d) then .fault else .ok

/-- `PL = VL DIV 8`, the predicate length in bits (R22, R66). -/
def Config.pl (cfg : Config) : Nat :=
  cfg.vl / 8

/-- `elements = VL DIV esize` with `esize = 8` (R22, R66). -/
def Config.elements (cfg : Config) : Nat :=
  cfg.vl / 8

/-- What the spec asks of a configuration: `VL` a positive multiple of 8 (R5), `ProgramText` a finite map from aligned
addresses (R6). -/
def Config.wf (cfg : Config) : Bool :=
  decide (0 < cfg.vl) && decide (cfg.vl % 8 = 0) && cfg.programText.wf

end Sys2Proof

namespace Sys2Proof.Machine

/-! ## Data memory (R24) -/

/-- What an unlisted address reads as. The spec gives memory no contents at reset (R28): DESIGN CHOICE 0 (log 4). -/
def Memory.unlisted : Byte := 0

/-- The byte under a key. -/
def Memory.get : Memory → Nat → Byte
  | [], _ => Memory.unlisted
  | (k, b) :: rest, a => if a = k then b else Memory.get rest a

/-- The memory with one byte replaced, the canonical form kept: a byte equal to what an unlisted address reads as is
not listed. -/
def Memory.put (a : Nat) (b : Byte) : Memory → Memory
  | [] => if b = Memory.unlisted then [] else [(a, b)]
  | (k, c) :: rest =>
    if a < k then (if b = Memory.unlisted then (k, c) :: rest else (a, b) :: (k, c) :: rest)
    else if a = k then (if b = Memory.unlisted then rest else (a, b) :: rest)
    else (k, c) :: Memory.put a b rest

/-- The byte at an address. No instruction of the spec reads data memory (R27): this is how the host and a claim see it
(R34, R107). -/
def Memory.read (m : Memory) (a : Addr) : Byte :=
  m.get a.toNat

/-- `MemWrite(a, 1, b)` (R9, R31). -/
def Memory.write (m : Memory) (a : Addr) (b : Byte) : Memory :=
  Memory.put a.toNat b m

/-- The canonical form from an address on: strictly rising addresses below `2^64`, no byte an unlisted address has. -/
def Memory.wfFrom (lo : Nat) : Memory → Bool
  | [] => true
  | (k, b) :: rest =>
    decide (lo ≤ k) && decide (k < 2 ^ 64) && decide (b ≠ Memory.unlisted) && Memory.wfFrom (k + 1) rest

/-- The canonical form of a memory: equal memories are equal data. -/
def Memory.wf (m : Memory) : Bool :=
  m.wfFrom 0

end Sys2Proof.Machine
end

