-- ==== Sys2Proof/Machine/Ops.lean ====
section
/-! DEFINITION. The named operations the meanings are written over: stopping with a fault or a refusal
(spec/60_exceptions.md R81, R91: a fault is an outcome, there is no trap entry), the checks, the register accessors, the
address functions and the store primitive (spec/00_scope.md R11 to R14), and the fetch (spec/30_encoding.md R50). -/

namespace Sys2Proof.Machine

/-! ## Outcomes (R81) -/

/-- A computation of one step: a value, or what stops the step. -/
abbrev Result (α : Type) := Except Stop α

/-- `raise K(info)` (R9): the instruction ends with the fault and no later line runs. This is all that taking a fault
does: no register is saved or changed, `pc` stays, no handler runs (R81, R91, D15; log 15). -/
def raise {α : Type} (k : Fault) : Result α :=
  .error (.fault k)

/-- `refuse K(info)` (R81): the model has no meaning for what was asked. -/
def refuse {α : Type} (r : Refusal) : Result α :=
  .error (.refuse r)

/-- What a stop is to the host. -/
def Stop.outcome {σ : Type} : Stop → Host.Outcome σ Fault Refusal
  | .fault k => .fault k
  | .refuse r => .refused r

/-- The outcome of a step from its computation (R81). -/
def Result.outcome : Result State → Host.Outcome State Fault Refusal
  | .ok s => .next s
  | .error e => e.outcome

/-! ## Checks (R14) -/

/-- The decode-time test on `FEAT_SVE` and `FEAT_SME` (R64, R82). -/
def featureTest (cfg : Config) : Result Unit :=
  if !cfg.featSve && !cfg.featSme then raise .undefined else .ok ()

/-- `CheckSVEEnabled()` (R14, R65, D7; log 16). -/
def checkSVEEnabled (cfg : Config) : Result Unit :=
  match cfg.sveAccess with
  | .ok => .ok ()
  | .trap => raise .sveAccessTrap

/-! ## Register accessors (R11): pure reads; a register without a value faults at the read (R29, D21; log 11) -/

/-- `X{64}(n)`. A number that names no register (no well-formed instruction has one) has no value either (log 25). -/
def readX (s : State) (n : Nat) : Result Addr :=
  match s.x[n]? with
  | some (some v) => .ok v
  | _ => raise (.unwrittenRegister (.x n))

/-- `SP{64}()` (R16). -/
def readSP (s : State) : Result Addr :=
  match s.sp with
  | some v => .ok v
  | none => raise (.unwrittenRegister .sp)

/-- `Z{VL}(i)`: the low `VL` bits (R11, R20, R22). -/
def readZ (s : State) (i : Nat) : Result (BitVec s.cfg.vl) :=
  match s.z[i]? with
  | some (some v) => .ok (BitVec.ofNat s.cfg.vl v)
  | _ => raise (.unwrittenRegister (.z i))

/-- `P{}(g)` with result type `bits(PL)`: the low `PL` bits (R11, R21, R22). -/
def readP (s : State) (g : Nat) : Result (BitVec s.cfg.pl) :=
  match s.p[g]? with
  | some (some v) => .ok (BitVec.ofNat s.cfg.pl v)
  | _ => raise (.unwrittenRegister (.p g))

/-- Whether a stack pointer value is no multiple of 16: `sp[3:0] != 0` (R14, R37; log 17). -/
def spMisaligned (v : Addr) : Bool :=
  v.extractLsb' 0 4 != 0

/-- The alignment check of R68 on the stack pointer, when `made` says it is made: `CheckSPAlignment()` (R14, R37, R84,
D8; log 17). The check reads `sp`; when it is not made `sp` is read next in any case (R69), so that a stack pointer
without a value gives the same fault (R87 item 7). -/
def checkSPAlignment (made : Bool) (s : State) : Result Unit := do
  let v ← readSP s
  if s.cfg.spAlignCheck && spMisaligned v && made then raise .spAlignmentFault else .ok ()

/-! ## Addresses and memory (R13) -/

/-- `CreateAccDescSVE` (R13, R40): a record of its arguments. -/
def createAccDescSVE (op : MemOp) (nontemporal contiguous predicated tagchecked : Bool) : AccDesc :=
  { op, nontemporal, contiguous, predicated, tagchecked }

/-- `AddressAdd(base, k, accdesc)`: the sum mod `2^64`; it never faults and ignores the descriptor (R13, R43, D10;
log 19). -/
def addressAdd (base : Addr) (k : Int) (_desc : AccDesc) : Addr :=
  BitVec.ofInt 64 ((base.toNat : Int) + k)

/-- `AddressIncrement(addr, k, accdesc)`: as `addressAdd`, for a natural number (R13, R43, D10; log 19). -/
def addressIncrement (addr : Addr) (k : Nat) (_desc : AccDesc) : Addr :=
  BitVec.ofNat 64 (addr.toNat + k)

/-- `Mem{8}(addr, accdesc) = v` (R13) behind the refusal of R48: the address in `ProgramText` is refused, else an
address `MemAdmit` does not admit is a data abort (R85), else the byte is written (R87 item 8). -/
def storeByte (cfg : Config) (desc : AccDesc) (a : Addr) (b : Byte) (m : Memory) : Result Memory :=
  if cfg.programText.covers a then refuse (.storeToProgramText a)
  else match cfg.memAdmit a desc with
    | .fault => raise (.dataAbort a)
    | .ok => .ok (m.write a b)

/-- Byte stores one after another; the first that stops is the one reported (R87). -/
def storeAll (cfg : Config) (desc : AccDesc) : List (Addr × Byte) → Memory → Result Memory
  | [], m => .ok m
  | (a, b) :: rest, m => do
    let m' ← storeByte cfg desc a b m
    storeAll cfg desc rest m'

/-! ## Completion (R17, R73) -/

/-- `pc <- (pc + 4) mod 2^64` (R17, R73, D2; log 20). -/
def nextPc (pc : Addr) : Addr :=
  pc + 4

/-- The state after an instruction that completes: its memory, its draws counted, the next `pc`; every register as it
was (R27, R73). -/
def State.completed (s : State) (m : Memory) (drawsUsed : Nat) : State :=
  { s with mem := m, draws := s.draws + drawsUsed, pc := nextPc s.pc }

/-! ## Fetch (R50) -/

/-- `pc[1:0] ≠ 0` (R38). -/
def pcMisaligned (pc : Addr) : Bool :=
  pc.extractLsb' 0 2 != 0

/-- An address with its low two bits cleared: the word an address lies in (R48, R100). -/
def alignDown (a : Addr) : Addr :=
  a - BitVec.ofNat 64 (a.toNat % 4)

/-- The word at `pc` (R50): a misaligned `pc` faults first (R38); outside `ProgramText` there is no step (R101;
log 12). -/
def fetch (s : State) : Result Word32 :=
  if pcMisaligned s.pc then raise .pcAlignment
  else match s.cfg.programText.wordAt s.pc.toNat with
    | some w => .ok w
    | none => refuse .endOfRun

/-- The verdict of the decode as part of a step: a word that is not ST2B is refused (R60, D4; log 22). -/
def decodeStep (w : Word32) : Result Instr :=
  match decodeWord w with
  | .ok i => .ok i
  | .error _ => refuse (.notInSpec w)

/-- The state with a word in `ProgramText` where the next step fetches: what the host's loading of a program does
before a run (R107; log 5). The low two bits of `pc` are cleared and the recorded outcome is cleared, as a fetch needs
(R38, R101). -/
def State.placeWord (s : State) (w : Word32) : State :=
  { s with
    cfg := { s.cfg with programText := ProgramText.put (alignDown s.pc).toNat w s.cfg.programText }
    pc := alignDown s.pc
    recorded := none }

/-- Fetch and decode: the instruction a step runs (R50, R87 items 1 and 2). -/
def fetchInstr (s : State) : Result Instr := do
  let w ← fetch s
  decodeStep w

end Sys2Proof.Machine
end

