-- ==== Sys2Proof/Machine/Operands.lean ====
section
/-! DEFINITION. The operand forms: the predicate helpers (spec/00_scope.md R12), the element slice (R8), the base
register and the one addressing mode (spec/40_st2b.md R69, R79), and the byte stores of one execution
(spec/40_st2b.md R71). -/

namespace Sys2Proof.Machine

/-! ## Predicates (R12, R67) -/

/-- `ActivePredicateElement{PL}(mask, e, esize)`: bit `e * (esize DIV 8)` of the mask (R12, D25; log 18). -/
def activePredicateElement {pl : Nat} (mask : BitVec pl) (e esize : Nat) : Bool :=
  mask.getLsbD (e * (esize / 8))

/-- `AnyActiveElement{PL}(mask, esize)`: some element among `0 .. PL * 8 DIV esize - 1` is active (R12). -/
def anyActiveElement {pl : Nat} (mask : BitVec pl) (esize : Nat) : Bool :=
  (List.range (pl * 8 / esize)).any (fun e => activePredicateElement mask e esize)

/-! ## Vectors -/

/-- `v[e*:esize]`: the `esize` bits from bit `e * esize` up (R8, R20). -/
def elementSlice {n : Nat} (v : BitVec n) (e esize : Nat) : BitVec esize :=
  v.extractLsb' (e * esize) esize

/-- The number of the second vector register, `(t + 1) MOD 32` (R54, R70). -/
def secondVector (zt : Nat) : Nat :=
  (zt + 1) % 32

/-! ## The base register (R55, R69) -/

/-- `base = if n == 31 then SP{64}() else X{64}(n)` (R55, R69). -/
def readBase (s : State) : BaseReg → Result Addr
  | .x n => readX s n
  | .sp => readSP s

/-- `tagchecked = n != 31` (R40, R55). -/
def tagChecked : BaseReg → Bool
  | .x _ => true
  | .sp => false

/-- The stack-pointer alignment check of the operation: only when the base is `sp` (R68). -/
def checkBaseAlignment (base : BaseReg) (made : Bool) (s : State) : Result Unit :=
  match base with
  | .x _ => .ok ()
  | .sp => checkSPAlignment made s

/-- How many draws an execution makes: one when the base is `sp` and no element is active, else none (R27, R68). -/
def drawsUsed (base : BaseReg) (anyActive : Bool) : Nat :=
  match base with
  | .x _ => 0
  | .sp => if anyActive then 0 else 1

/-- `offset * elements * nreg * mbytes` with `nreg = 2` and `mbytes = 1`, an unbounded integer (R53, R69, R75). -/
def byteOffset (cfg : Config) (off : Int) : Int :=
  off * (cfg.elements : Int) * 2 * 1

/-- The start address `addr0` (R69): it does not depend on the predicate. -/
def startAddress (cfg : Config) (base : Addr) (off : Int) (desc : AccDesc) : Addr :=
  addressAdd base (byteOffset cfg off) desc

/-! ## The byte stores (R71) -/

/-- Byte `r` of structure `e` lies at `(addr0 + 2 * e + r) mod 2^64` (R63, R71). -/
def structureAddress (addr0 : Addr) (e r : Nat) (desc : AccDesc) : Addr :=
  addressIncrement addr0 (2 * e + r) desc

/-- The two byte stores of structure `e`: from the first register, then from the second; none when element `e` is
inactive (R32, R63, R71). -/
def structureStores {pl vl : Nat} (mask : BitVec pl) (v0 v1 : BitVec vl) (addr0 : Addr) (desc : AccDesc) (e : Nat) :
    List (Addr × Byte) :=
  if activePredicateElement mask e 8 then
    [(structureAddress addr0 e 0 desc, elementSlice v0 e 8), (structureAddress addr0 e 1 desc, elementSlice v1 e 8)]
  else []

/-- The byte stores of one execution in loop order, `e` from 0 to `elements - 1` (R63 step 7, R71). -/
def interleavedStores {pl vl : Nat} (elements : Nat) (mask : BitVec pl) (v0 v1 : BitVec vl) (addr0 : Addr)
    (desc : AccDesc) : List (Addr × Byte) :=
  (List.range elements).flatMap (structureStores mask v0 v1 addr0 desc)

/-- All that an execution settles before its store loop: the descriptor, the byte stores to make, the draws made. -/
structure StorePlan where
  desc : AccDesc
  stores : List (Addr × Byte)
  draws : Nat
deriving DecidableEq, Repr

end Sys2Proof.Machine
end

