-- ==== Sys2Proof/Machine/St2b.lean ====
section
/-! DEFINITION. ST2B (scalar plus immediate): the master rule R63 of spec/40_st2b.md. -/

namespace Sys2Proof.Machine

/-- The descriptor of every byte store of ST2B (R40, R63 step 3). -/
def descSt2b (base : BaseReg) : AccDesc :=
  createAccDescSVE .store (nontemporal := false) (contiguous := true) (predicated := true)
    (tagchecked := tagChecked base)

/-- Steps 1 to 6 of R63, and the byte stores that step 7 is to make. `draw` is the value of the CHECKSPNONEACTIVE draw,
used only when the base is `sp` and no element is active (R68). -/
def planSt2b (draw : Bool) (zt pg : Nat) (base : BaseReg) (off : Int) (s : State) : Result StorePlan := do
  featureTest s.cfg                                             -- step 1, R64
  checkSVEEnabled s.cfg                                         -- step 2, R65
  let mask ← readP s pg                                         -- step 3, R66 and R67
  let anyActive := anyActiveElement mask 8
  checkBaseAlignment base (anyActive || draw) s                 -- step 4, R68
  let baseValue ← readBase s base                               -- step 5, R69
  let addr0 := startAddress s.cfg baseValue off (descSt2b base)
  let v0 ← readZ s zt                                           -- step 6, R70
  let v1 ← readZ s (secondVector zt)
  return {
    desc := descSt2b base
    stores := interleavedStores s.cfg.elements mask v0 v1 addr0 (descSt2b base)
    draws := drawsUsed base anyActive }

/-- The operation of ST2B with the draw as an argument (R63): the plan, the store loop (step 7, R71), completion
(step 8, R73). -/
def st2b (draw : Bool) (zt pg : Nat) (base : BaseReg) (off : Int) (s : State) : Result State := do
  let plan ← planSt2b draw zt pg base off s
  let m ← storeAll s.cfg plan.desc plan.stores s.mem
  return s.completed m plan.draws

/-- The meaning of ST2B (R63): the draw is the next free value (R68, D9; log 10). -/
def execSt2b (zt pg : Nat) (base : BaseReg) (off : Int) (s : State) : Host.Outcome State Fault Refusal :=
  Result.outcome (st2b (Config.checkSpNoneActive s.draws) zt pg base off s)

/-- The byte addresses of the active structures of an instruction, which a data abort leaves unspecified (R88). -/
def activeAddresses (i : Instr) (s : State) : List Addr :=
  match i with
  | .st2b zt pg base off =>
    match planSt2b (Config.checkSpNoneActive s.draws) zt pg base off s with
    | .ok plan => plan.stores.map Prod.fst
    | .error _ => []

end Sys2Proof.Machine
end

