-- ==== Sys2Proof/Machine/Dispatch.lean ====
section
/-! DEFINITION. One arm per constructor of `Instr`: the row of spec/opcode_table.json and its meaning. -/

namespace Sys2Proof.Machine

def exec (i : Instr) (s : State) : Host.Outcome State Fault Refusal :=
  match i with
  -- ST2B (scalar plus immediate), spec/40_st2b.md R63
  | .st2b zt pg base off => Sys2Proof.Machine.execSt2b zt pg base off s

end Sys2Proof.Machine
end

