-- ==== Sys2Proof/Machine/Step.lean ====
section
/-! DEFINITION. One step of the machine (spec/60_exceptions.md R81; spec/30_encoding.md R50; spec/70_reset_and_hazards.md
R101), and the placing of a word where the next step fetches. -/

namespace Sys2Proof.Machine

/-- One step. A state with a recorded outcome has no step: it answers that outcome again (R81, R101; log 13). Otherwise
the word at `pc` is fetched and decoded (R50) and the instruction runs. -/
def step (s : State) : Host.Outcome State Fault Refusal :=
  match s.recorded with
  | some e => e.outcome
  | none =>
    match fetchInstr s with
    | .error e => e.outcome
    | .ok i => exec i s

/-- The same state with the word of `w` (its bits from `nbits` up are 0) in `ProgramText` at `pc`, so that the next step
runs it (log 5): at `State.reset`, `pc` is aligned and nothing is recorded, so only `ProgramText` changes. -/
def State.withFetchWord (s : State) (nbits w : Nat) : State :=
  s.placeWord (tableWord nbits w)

end Sys2Proof.Machine
end

