-- ==== Sys2Proof/WellFormed.lean ====
section
/-! DEFINITION. Which terms of `Instr` are instructions: each operand within the range its field encodes
(spec/30_encoding.md R53 to R56). Every combination in range is an instruction (R59). -/

namespace Sys2Proof

/-- `X0` to `X30`, or the stack pointer (R55). -/
def BaseReg.wf : BaseReg → Bool
  | .x n => decide (n ≤ 30)
  | .sp => true

/-- The operand ranges of R53 (`off` in -8 .. 7), R54 (`Zt` in 0 .. 31), R55 and R56 (`Pg` in 0 .. 7). -/
def Instr.wf : Instr → Bool
  | .st2b zt pg base off =>
    decide (zt ≤ 31) && decide (pg ≤ 7) && base.wf && decide (-8 ≤ off) && decide (off ≤ 7)

end Sys2Proof
end

