-- ==== Sys2Proof/Machine/Assembler.lean ====
section
/-! DEFINITION. The assembler syntax (spec/30_encoding.md R61, R62): the operands of the template, from assembly to an
instruction and back, and the text of the template. Log 35. -/

namespace Sys2Proof.Machine

/-- The operands of the template: `<Zt1>`, `<Zt2>`, `<Pg>`, `<Xn|SP>` and the optional `<imm>` (R61). -/
structure AsmSt2b where
  zt1 : Nat
  zt2 : Nat
  pg : Nat
  base : BaseReg
  imm : Option Int
deriving DecidableEq, Repr

/-- Why an assembler refuses operands (R62). -/
inductive AsmError where
  /-- No such first vector register: the names are `Z0` to `Z31`. -/
  | noSuchVector
  /-- The second register is not `(Zt1 + 1) mod 32`. -/
  | notTheNextVector
  /-- The predicate is not `P0` to `P7`. -/
  | noSuchPredicate
  /-- The base is not `X0` to `X30` or `SP`. -/
  | noSuchBase
  /-- `<imm>` is odd. -/
  | oddImmediate
  /-- `<imm>` is not in -16 .. 14. -/
  | immediateOutOfRange
deriving DecidableEq, Repr

/-- From assembly to an instruction (R62): `<imm>` defaults to 0 and is even and in -16 .. 14, `off = <imm> / 2`. -/
def assemble (a : AsmSt2b) : Except AsmError Instr :=
  let imm := a.imm.getD 0
  if 32 ≤ a.zt1 then .error .noSuchVector
  else if a.zt2 ≠ (a.zt1 + 1) % 32 then .error .notTheNextVector
  else if 8 ≤ a.pg then .error .noSuchPredicate
  else if a.base.wf = false then .error .noSuchBase
  else if imm % 2 ≠ 0 then .error .oddImmediate
  else if imm < -16 ∨ 14 < imm then .error .immediateOutOfRange
  else .ok (.st2b a.zt1 a.pg a.base (imm / 2))

/-- From an instruction to assembly (R62): `<imm> = 2 * SInt(imm4)`, left out when it is 0. -/
def disassemble : Instr → AsmSt2b
  | .st2b zt pg base off =>
    { zt1 := zt, zt2 := (zt + 1) % 32, pg, base, imm := if off = 0 then none else some (2 * off) }

/-- `X0` to `X30` or `SP` (R62). -/
def baseName : BaseReg → String
  | .x n => "X" ++ toString n
  | .sp => "SP"

/-- The template of R61 filled in. The two brace characters of the register list are written by their code points. -/
def asmText (a : AsmSt2b) : String :=
  "ST2B " ++ String.singleton (Char.ofNat 123) ++ " Z" ++ toString a.zt1 ++ ".B, Z" ++ toString a.zt2 ++ ".B "
    ++ String.singleton (Char.ofNat 125) ++ ", P" ++ toString a.pg ++ ", [" ++ baseName a.base
    ++ (match a.imm with
        | none => ""
        | some imm => ", #" ++ toString imm ++ ", MUL VL")
    ++ "]"

end Sys2Proof.Machine
end

