-- ==== Sys2Proof/Machine/PageLoop.lean ====
section
/-! DEFINITION. The store loop as the page writes it (spec/40_st2b.md section 0, R71): a running address that advances
whether or not the element is active. The meaning is written over R63's closed form; a statement says the two agree. -/

namespace Sys2Proof.Machine

/-- The body of the inner loop: the store if the element is active, then `AddressIncrement` by `mbytes = 1` in any case
(R71). -/
def pageStore (cfg : Config) (desc : AccDesc) (active : Bool) (b : Byte) (addr : Addr) (m : Memory) :
    Result (Addr × Memory) := do
  let m' ← if active then storeByte cfg desc addr b m else .ok m
  return (addressIncrement addr 1 desc, m')

/-- The outer loop over the elements of a list, with `r = 0` and `r = 1` inside (R71): the running address and the memory
after it. -/
def pageLoop {pl vl : Nat} (cfg : Config) (desc : AccDesc) (mask : BitVec pl) (v0 v1 : BitVec vl) :
    List Nat → Addr → Memory → Result (Addr × Memory)
  | [], addr, m => .ok (addr, m)
  | e :: es, addr, m => do
    let active := activePredicateElement mask e 8
    let (addr1, m1) ← pageStore cfg desc active (elementSlice v0 e 8) addr m
    let (addr2, m2) ← pageStore cfg desc active (elementSlice v1 e 8) addr1 m1
    pageLoop cfg desc mask v0 v1 es addr2 m2

end Sys2Proof.Machine
end

