-- ==== Sys2Proof/Machine/Invariant.lean ====
section
/-! DEFINITION. What every run keeps true of a state that was well-formed at launch. -/

namespace Sys2Proof.Machine

/-- The configuration is one the spec permits (R5, R6), `pc` is a multiple of 4 (R17, R38) and the memory is in its
canonical form. -/
def State.inv (s : State) : Bool :=
  s.cfg.wf && !pcMisaligned s.pc && s.mem.wf

end Sys2Proof.Machine
end

