-- ==== Sys2Proof/Machine/Run.lean ====
section
/-! DEFINITION. Before, along and after a run: the launch state (spec/70_reset_and_hazards.md R98, R107), the state a
faulted or refused run rests in (spec/60_exceptions.md R81, R88, R91), final states (R101) and what the host sees. -/

namespace Sys2Proof.Machine

/-! ## Launch (R28, R98, R107 item 1) -/

/-- `LaunchState` (R6, D20): `pc` and memory always, each register a value or none (R29). -/
structure LaunchState where
  x : Vector (Option Addr) 31
  sp : Option Addr
  pc : Addr
  z : Vector (Option ScalableBits) 32
  p : Vector (Option ScalableBits) 8
  mem : Memory
deriving DecidableEq, Repr

/-- The constraints on a launch state (spec/92_eei_decisions.md, the OPEN parameters): `pc mod 4 = 0`, each `z` value
has `VL` bits, each `p` value `VL/8` bits; and the memory is in its canonical form. -/
def LaunchState.wf (cfg : Config) (l : LaunchState) : Bool :=
  !pcMisaligned l.pc && l.mem.wf
    && l.z.toList.all (fun v => decide (v.getD 0 < 2 ^ cfg.vl))
    && l.p.toList.all (fun v => decide (v.getD 0 < 2 ^ cfg.pl))

/-- The state in which a run begins (R98): the host's configuration and launch state, nothing recorded, no draw made. -/
def State.launch (cfg : Config) (l : LaunchState) : State :=
  { cfg, x := l.x, sp := l.sp, pc := l.pc, z := l.z, p := l.p, mem := l.mem, draws := 0, recorded := none }

/-- The part of a state that the host can hand over or read back. -/
def State.image (s : State) : LaunchState :=
  { x := s.x, sp := s.sp, pc := s.pc, z := s.z, p := s.p, mem := s.mem }

/-! ## The end of a run (R101) -/

/-- A state is final when `pc` is aligned and outside `ProgramText` and nothing is recorded (R101, D23). -/
def State.isFinal (s : State) : Bool :=
  !pcMisaligned s.pc && (s.cfg.programText.wordAt s.pc.toNat).isNone && s.recorded.isNone

/-! ## The state a stopped run rests in (R81, R88, R91) -/

/-- The bytes a stop leaves unspecified: after a data abort, and after a refused store of which nothing is claimed
(R81), every byte of every active structure of the instruction at `pc` (R88, D16); after any other stop, none. -/
def unspecifiedAfter (e : Stop) (s : State) : List Addr :=
  match e with
  | .fault (.dataAbort _) | .refuse (.storeToProgramText _) =>
    match fetchInstr s with
    | .ok i => activeAddresses i s
    | .error _ => []
  | _ => []

/-- The memory with the bytes at some addresses replaced by free values. -/
def Memory.writeFree (free : Addr → Byte) : List Addr → Memory → Memory
  | [], m => m
  | a :: rest, m => Memory.writeFree free rest (m.write a (free a))

/-- The stop is recorded, registers and `pc` stay (R81, R91), and the bytes the stop leaves unspecified take the free
values `free` (R88; log 14): a claim holds for every `free`. -/
def State.recordStop (free : Addr → Byte) (e : Stop) (s : State) : State :=
  { s with recorded := some e, mem := Memory.writeFree free (unspecifiedAfter e s) s.mem }

/-- What a run's state becomes by one attempted step: the next state; at a fault or a refusal the state with the stop
recorded (R81); a final state and a state with a recorded stop have no step and stay as they are (R101). -/
def afterStep (free : Addr → Byte) (s : State) : State :=
  match s.recorded with
  | some _ => s
  | none =>
    match step s with
    | .next s' => s'
    | .fault k => s.recordStop free (.fault k)
    | .refused .endOfRun => s
    | .refused r => s.recordStop free (.refuse r)

/-- A run of at most `n` attempted steps (R102: each instruction completes before the next begins). -/
def runFor (free : Addr → Byte) : Nat → State → State
  | 0, s => s
  | n + 1, s => runFor free n (afterStep free s)

/-! ## What the host sees after a run (R107 item 3) -/

/-- The recorded outcome, and the registers and memory if the state is final. -/
structure HostView where
  outcome : Option Stop
  image : Option LaunchState
deriving DecidableEq, Repr

/-- R107 item 3. -/
def State.hostView (s : State) : HostView :=
  { outcome := s.recorded, image := if s.isFinal then some s.image else none }

/-! ## Programs given as bytes (R35, R100) -/

/-- The words of a byte string, lowest address first, four bytes a word; bytes left over are dropped (R35, D1). -/
def wordsOfBytes : List Byte → List Word32
  | b0 :: b1 :: b2 :: b3 :: rest => wordOfBytes b0 b1 b2 b3 :: wordsOfBytes rest
  | _ => []

/-- The program text a byte string makes when it is loaded from address `b` on (R35, R100). -/
def textOfBytes (b : Addr) (bytes : List Byte) : ProgramText :=
  ProgramText.block b (wordsOfBytes bytes)

end Sys2Proof.Machine
end

