-- ==== Sys2Proof/Safety.lean ====
section
/-! DEFINITION. What a run is and what a safe one is (spec/70_reset_and_hazards.md R98, R101, R106;
spec/60_exceptions.md R81), and the words in which statements speak of a state: what a register holds, which elements are
active, where their bytes go. -/

namespace Sys2Proof.Machine

/-! ## Runs -/

/-- `k` completed steps lead from `s` to `t`: none faulted, none was refused. -/
def Reaches (k : Nat) (s t : State) : Prop :=
  Host.Core.run Sys2Proof.core k s = .next t

/-- A run that ends as a claim needs it: after `k` completed steps the state is final (R101). -/
def Completes (k : Nat) (s t : State) : Prop :=
  Reaches k s t ∧ t.isFinal = true

/-- A state has no step: it is final or has a recorded stop (R101). -/
def Stopped (s : State) : Prop :=
  s.isFinal = true ∨ s.recorded.isSome = true

/-- A safe run: it does not fault and is not refused before its end (R81, R101). -/
def Safe (s : State) : Prop :=
  ∃ k t, Completes k s t

/-! ## What a state holds -/

/-- What `Xn` holds; none if it holds no value (R29) or there is no such register. -/
def State.xAt (s : State) (n : Nat) : Option Addr :=
  (s.x[n]?).join

/-- What `Zi` holds. -/
def State.zAt (s : State) (i : Nat) : Option ScalableBits :=
  (s.z[i]?).join

/-- What `Pg` holds. -/
def State.pAt (s : State) (g : Nat) : Option ScalableBits :=
  (s.p[g]?).join

/-- What the base operand holds (R55). -/
def State.baseAt (s : State) : BaseReg → Option Addr
  | .x n => s.xAt n
  | .sp => s.sp

/-- Two states have the same registers, configuration (`ProgramText` is part of it) and recorded outcome: everything but
`pc`, memory and the model's draw counter. -/
def SameRegisters (s t : State) : Prop :=
  t.cfg = s.cfg ∧ t.x = s.x ∧ t.sp = s.sp ∧ t.z = s.z ∧ t.p = s.p ∧ t.recorded = s.recorded

/-- The instruction is defined and enabled (R64, R65). -/
def Enabled (cfg : Config) : Prop :=
  (cfg.featSve = true ∨ cfg.featSme = true) ∧ cfg.sveAccess = .ok

/-! ## The bytes of one execution -/

/-- Byte element `e` is active under a predicate register's contents: one of the `VL/8` elements, and bit `e` is 1
(R67). -/
def ActiveIn (cfg : Config) (predicate : ScalableBits) (e : Nat) : Prop :=
  e < cfg.vl / 8 ∧ predicate.testBit e = true

/-- Byte `e` of a vector register's contents, element 0 least significant (R20). -/
def registerByte (contents : ScalableBits) (e : Nat) : Byte :=
  BitVec.ofNat 8 (contents / 2 ^ (8 * e))

/-- Where ST2B stores byte `r` of structure `e`, by the functions its meaning uses (R69, R71). -/
def storeAddress (cfg : Config) (base : BaseReg) (baseValue : Addr) (off : Int) (e r : Nat) : Addr :=
  structureAddress (startAddress cfg baseValue off (descSt2b base)) e r (descSt2b base)

/-- A byte address an instruction may store to: outside `ProgramText` (R48) and admitted (R44). -/
def Clear (cfg : Config) (desc : AccDesc) (a : Addr) : Prop :=
  cfg.programText.covers a = false ∧ cfg.memAdmit a desc = .ok

/-- What stops a store at an address that is not clear (R87 item 8). -/
def stopAt (cfg : Config) (a : Addr) : Stop :=
  if cfg.programText.covers a then .refuse (.storeToProgramText a) else .fault (.dataAbort a)

/-! ## Comparing outcomes -/

/-- An outcome with its next state, if it has one, changed. -/
def mapNext (f : State → State) : Host.Outcome State Fault Refusal → Host.Outcome State Fault Refusal
  | .next s => .next (f s)
  | .fault k => .fault k
  | .refused r => .refused r

/-- The state whose `Z` and `P` registers hold only their low `VL` and low `PL` bits (R22). -/
def State.truncated (s : State) : State :=
  { s with
    z := s.z.map (fun v => v.map (· % 2 ^ s.cfg.vl))
    p := s.p.map (fun v => v.map (· % 2 ^ s.cfg.pl)) }

end Sys2Proof.Machine
end

