-- ==== Sys2Proof/Certificates/Slice0/Obligations.lean ====
section
/-! DEFINITION. The statements for the provers: the encoding, ST2B, and the machine around it. -/

open Sys2Proof Sys2Proof.Machine

/-! ## Encoding -/

/-- Decoding the encoding of any well-formed instruction gives it back, as a word and as bytes in memory order
(spec/30_encoding.md R51 to R56; little-endian bytes: the spec's decision D1, log 23). -/
def Obligations.DecodeOfEncodeIsTheInstruction : Prop :=
  ∀ i : Instr, i.wf = true → decodeWord (encode i) = .ok i ∧ decodeBytes (encodeBytes i) = .ok i

/-- A word that decodes is the encoding of what it decodes to, which is well-formed: no bit of a word is dropped. -/
def Obligations.EncodeOfDecodeIsTheWord : Prop :=
  ∀ (w : Word32) (i : Instr), decodeWord w = .ok i → i.wf = true ∧ encode i = w

/-- R59: every combination of the four fields is a valid ST2B, with the operands R51 to R56 give; the one decode-time
condition is on the implementation: without `FEAT_SVE` and `FEAT_SME` it is UNDEFINED. -/
def Obligations.EveryFieldCombinationIsAnInstruction : Prop :=
  ∀ (imm4 : BitVec 4) (pg : BitVec 3) (rn zt : BitVec 5),
    decodeWord (0b111001000011#12 ++ imm4 ++ 0b111#3 ++ pg ++ rn ++ zt) =
      .ok (.st2b zt.toNat pg.toNat (if rn.toNat = 31 then .sp else .x rn.toNat) imm4.toInt) ∧
    ∀ s : State,
      exec (.st2b zt.toNat pg.toNat (if rn.toNat = 31 then .sp else .x rn.toNat) imm4.toInt) s = .fault .undefined ↔
        s.cfg.featSve = false ∧ s.cfg.featSme = false

/-- Flipping one fixed bit of an ST2B word makes a word that is not in the spec, flipping one field bit another ST2B
(spec/95_test_vectors.md section 2.2). -/
def Obligations.OneFlippedBitLeavesTheEncodingExactlyWhenFixed : Prop :=
  ∀ (w : Word32) (i : Instr) (k : Nat), decodeWord w = .ok i → k < 32 →
    (((12 < k ∧ k < 16) ∨ 19 < k) → decodeWord (w ^^^ (1#32 <<< k)) = .error (.notInSpec (w ^^^ (1#32 <<< k)))) ∧
    ((k < 13 ∨ (15 < k ∧ k < 20)) → ∃ j, j ≠ i ∧ decodeWord (w ^^^ (1#32 <<< k)) = .ok j)

/-- The words E1, E2, E4, E5 and E9 of spec/95_test_vectors.md decode to the instructions they stand for. -/
def Obligations.VectorWordsDecode : Prop :=
  decodeWord 0xE430E000 = .ok (.st2b 0 0 (.x 0) 0) ∧
  decodeWord 0xE431E000 = .ok (.st2b 0 0 (.x 0) 1) ∧
  decodeWord 0xE437EE24 = .ok (.st2b 4 3 (.x 17) 7) ∧
  decodeWord 0xE438FFFF = .ok (.st2b 31 7 .sp (-8)) ∧
  decodeWord 0xE43CE92A = .ok (.st2b 10 2 (.x 9) (-4))

/-- The bytes of any word, lowest address first, decode as the word does, and the opcode table's numbering gives the
same instruction (little-endian bytes: the spec's decision D1, log 23). -/
def Obligations.BytesAndTableWordsDecodeAsTheWord : Prop :=
  ∀ w : Word32, decodeBytes (bytesOfWord w) = decodeWord w ∧
    ∀ i, decodeTableWord 32 w.toNat = some i ↔ decodeWord w = .ok i

/-- R62: disassembling and assembling again gives the instruction; what an assembler accepts is well-formed, its `<imm>`
is twice the signed field, the field is `(<imm> / 2) mod 16`; it refuses an odd `<imm>`, one out of -16 .. 14, a second
register that is not the next, a predicate above `P7`. -/
def Obligations.AssemblerAgreesWithTheEncoding : Prop :=
  (∀ i : Instr, i.wf = true → assemble (disassemble i) = .ok i) ∧
  (∀ (a : AsmSt2b) (i : Instr), assemble a = .ok i →
    i.wf = true ∧ i = .st2b a.zt1 a.pg a.base (a.imm.getD 0 / 2) ∧ a.zt2 = (a.zt1 + 1) % 32 ∧
    a.imm.getD 0 = 2 * (field (encode i) 19 16).toInt ∧
    ((field (encode i) 19 16).toNat : Int) = (a.imm.getD 0 / 2) % 16) ∧
  (∀ a : AsmSt2b, (∃ x, assemble a = .error x) ↔
    a.zt1 > 31 ∨ a.zt2 ≠ (a.zt1 + 1) % 32 ∨ a.pg > 7 ∨ a.base.wf = false ∨ a.imm.getD 0 % 2 = 1 ∨
      a.imm.getD 0 < -16 ∨ a.imm.getD 0 > 14)

/-! ## ST2B: what it does when it runs -/

/-- The whole effect of R63 in the closed form of R72 (which the spec marks as derived): with the instruction enabled, its
registers holding values, the stack pointer aligned where the base is `sp` and the check is on, and every byte of every active
structure at a clear address, ST2B completes: the two vectors' active bytes are interleaved from the start address on,
every other byte, every register and the configuration are unchanged, and `pc` is 4 further (the step of 4: decision D2,
log 20). `VL/4 ≤ 2^64` keeps the addresses of one execution different (R43). -/
def Obligations.St2bInterleavesActiveBytesAndCompletes : Prop :=
  ∀ (s : State) (zt pg : Nat) (base : BaseReg) (off : Int) (pv v0 v1 : ScalableBits) (b : Addr),
    Enabled s.cfg → s.cfg.vl / 4 ≤ 2 ^ 64 → s.mem.wf = true →
    s.pAt pg = some pv → s.baseAt base = some b → s.zAt zt = some v0 → s.zAt ((zt + 1) % 32) = some v1 →
    (base = .sp → s.cfg.spAlignCheck = true → b.toNat % 16 = 0) →
    (∀ e r, ActiveIn s.cfg pv e → r < 2 → Clear s.cfg (descSt2b base) (storeAddress s.cfg base b off e r)) →
    ∃ t, exec (.st2b zt pg base off) s = .next t ∧ SameRegisters s t ∧ t.pc = s.pc + 4 ∧
      (∀ e, ActiveIn s.cfg pv e →
        t.mem.read (storeAddress s.cfg base b off e 0) = registerByte v0 e ∧
        t.mem.read (storeAddress s.cfg base b off e 1) = registerByte v1 e) ∧
      (∀ a, (∀ e r, ActiveIn s.cfg pv e → r < 2 → a ≠ storeAddress s.cfg base b off e r) →
        t.mem.read a = s.mem.read a)

/-- With no active element and a base `X0` to `X30`, ST2B only advances `pc`, whatever `MemAdmit`, `ProgramText` and the
address are (R77, first row). -/
def Obligations.NoActiveElementOnlyAdvancesPc : Prop :=
  ∀ (s : State) (zt pg n : Nat) (off : Int) (pv v0 v1 : ScalableBits) (b : Addr),
    Enabled s.cfg → s.pAt pg = some pv → (∀ e, ¬ ActiveIn s.cfg pv e) →
    s.xAt n = some b → s.zAt zt = some v0 → s.zAt ((zt + 1) % 32) = some v1 →
    exec (.st2b zt pg (.x n) off) s = .next { s with pc := s.pc + 4 }

/-- With no active element and the base `sp`, a draw decides whether the stack pointer is checked: for either value of
the draw the operation is as R68 and U1 say, and `exec` uses the run's next free value (decision D9, log 10). -/
def Obligations.NoActiveElementDrawDecidesTheSpCheck : Prop :=
  ∀ (s : State) (zt pg : Nat) (off : Int) (pv v0 v1 : ScalableBits) (b : Addr),
    Enabled s.cfg → s.pAt pg = some pv → (∀ e, ¬ ActiveIn s.cfg pv e) →
    s.sp = some b → s.zAt zt = some v0 → s.zAt ((zt + 1) % 32) = some v1 →
    (∀ draw, Result.outcome (st2b draw zt pg .sp off s) =
      if s.cfg.spAlignCheck = true ∧ b.toNat % 16 ≠ 0 ∧ draw = true then .fault .spAlignmentFault
      else .next { s with pc := s.pc + 4, draws := s.draws + 1 }) ∧
    exec (.st2b zt pg .sp off) s =
      Result.outcome (st2b (Config.checkSpNoneActive s.draws) zt pg .sp off s)

/-- R27 (derived by the spec from R63): an instruction that completes changes no register, no configuration value and no
recorded outcome, and advances `pc` by 4. -/
def Obligations.CompletionKeepsRegistersAndConfiguration : Prop :=
  ∀ (i : Instr) (s t : State), exec i s = .next t → SameRegisters s t ∧ t.pc = s.pc + 4

/-- R32 and R27: when ST2B completes, every byte outside its active structures is unchanged. -/
def Obligations.CompletionKeepsBytesOutsideActiveStructures : Prop :=
  ∀ (s t : State) (zt pg : Nat) (base : BaseReg) (off : Int) (pv : ScalableBits) (b : Addr),
    exec (.st2b zt pg base off) s = .next t → s.pAt pg = some pv → s.baseAt base = some b →
    ∀ a, (∀ e r, ActiveIn s.cfg pv e → r < 2 → a ≠ storeAddress s.cfg base b off e r) →
      t.mem.read a = s.mem.read a

/-- The start address is `(base + off * VL/4) mod 2^64`, byte `r` of structure `e` lies `2 e + r` further mod `2^64`
(R69, R71; wrapping: decision D10, log 19). -/
def Obligations.StoreAddressesAreScaledAndWrap : Prop :=
  ∀ (cfg : Config) (base : BaseReg) (b : Addr) (off : Int) (e r : Nat), cfg.vl % 8 = 0 →
    ((storeAddress cfg base b off e r).toNat : Int) =
      ((b.toNat : Int) + off * ((cfg.vl / 4 : Nat) : Int) + 2 * e + r) % 2 ^ 64

/-- R43: the byte addresses of one execution are pairwise different, even across a wrap of the address space, as long as
`VL/4 ≤ 2^64`. -/
def Obligations.StoreAddressesAreDistinct : Prop :=
  ∀ (cfg : Config) (base : BaseReg) (b : Addr) (off : Int) (e r e' r' : Nat), cfg.vl / 4 ≤ 2 ^ 64 →
    e < cfg.vl / 8 → e' < cfg.vl / 8 → r < 2 → r' < 2 →
    storeAddress cfg base b off e r = storeAddress cfg base b off e' r' → e = e' ∧ r = r'

/-- R40: every byte store of an execution carries one descriptor: a store, not non-temporal, contiguous, predicated, and
tag-checked unless the base is the stack pointer; it decides nothing but the answers of `MemAdmit` asked with it: what
`MemAdmit` says of any other descriptor makes no difference. -/
def Obligations.EveryStoreCarriesTheDescriptor : Prop :=
  ∀ (zt pg : Nat) (base : BaseReg) (off : Int) (s : State) (desc : AccDesc), desc.op = .store →
    desc.nontemporal = false → desc.contiguous = true → desc.predicated = true →
    (desc.tagchecked = true ↔ base ≠ .sp) →
    (∀ draw plan, planSt2b draw zt pg base off s = .ok plan → plan.desc = desc) ∧
    ∀ refused : List RefusedRange,
      (∀ a, ({ s.cfg with memRefused := refused } : Config).memAdmit a desc = s.cfg.memAdmit a desc) →
      exec (.st2b zt pg base off) { s with cfg := { s.cfg with memRefused := refused } } =
        mapNext (fun t => { t with cfg := { s.cfg with memRefused := refused } }) (exec (.st2b zt pg base off) s)

/-- R31: an execution makes two byte stores for each active element, at most `VL/4` in all; what it does to memory is
those byte stores, each of one byte, in order. -/
def Obligations.ByteStoresAreTwiceTheActiveElements : Prop :=
  ∀ (s : State) (draw : Bool) (zt pg : Nat) (base : BaseReg) (off : Int) (pv : ScalableBits) (plan : StorePlan),
    s.pAt pg = some pv → planSt2b draw zt pg base off s = .ok plan →
    plan.stores.length = 2 * (List.range (s.cfg.vl / 8)).countP (fun e => pv.testBit e) ∧
    plan.stores.length ≤ s.cfg.vl / 4 ∧
    ∀ t, st2b draw zt pg base off s = .ok t →
      t.mem = plan.stores.foldl (fun m q => m.write q.1 q.2) s.mem

/-- R71: the store loop as the page writes it, with a running address that advances past inactive elements too, makes
the same stores and stops as the closed form the meaning uses, and leaves the running address `VL/4` bytes on. -/
def Obligations.PageLoopAgreesWithClosedForm : Prop :=
  ∀ (cfg : Config) (desc : AccDesc) (pl vl n : Nat) (mask : BitVec pl) (v0 v1 : BitVec vl) (addr0 : Addr) (m : Memory),
    pageLoop cfg desc mask v0 v1 (List.range n) addr0 m =
      (storeAll cfg desc (interleavedStores n mask v0 v1 addr0 desc) m).map
        (fun m' => (addressIncrement addr0 (2 * n) desc, m'))

/-- R46: the byte stores of one execution may be made in any order; the memory after a fault-free execution is the same
data. -/
def Obligations.StoreOrderDoesNotMatter : Prop :=
  ∀ (draw : Bool) (zt pg : Nat) (base : BaseReg) (off : Int) (s : State) (plan : StorePlan) (l : List (Addr × Byte))
    (m : Memory), planSt2b draw zt pg base off s = .ok plan → s.cfg.vl / 4 ≤ 2 ^ 64 → s.mem.wf = true →
    l.Perm plan.stores → storeAll s.cfg plan.desc plan.stores s.mem = .ok m →
    storeAll s.cfg plan.desc l s.mem = .ok m

/-- R41: executing an ST2B again from the same registers over the memory it left gives the same state. -/
def Obligations.St2bIsIdempotentOnMemory : Prop :=
  ∀ (i : Instr) (s t : State), s.mem.wf = true → exec i s = .next t → exec i { s with mem := t.mem } = .next t

/-! ## ST2B: when it stops -/

/-- R82: every word that matches the encoding is `Undefined` exactly when the implementation has neither feature, in
every state. -/
def Obligations.UndefinedExactlyWithoutBothFeatures : Prop :=
  ∀ (w : Word32) (i : Instr) (s : State), decodeWord w = .ok i →
    (exec i s = .fault .undefined ↔ s.cfg.featSve = false ∧ s.cfg.featSme = false)

/-- R65, R83 (decision D7, log 16): a defined instruction takes the trap exactly when `SveAccess = trap`, in every state
of the registers and memory. -/
def Obligations.SveAccessTrapExactlyWhenTrapped : Prop :=
  ∀ (i : Instr) (s : State), s.cfg.featSve = true ∨ s.cfg.featSme = true →
    (exec i s = .fault .sveAccessTrap ↔ s.cfg.sveAccess = .trap)

/-- R68, R84 (decision D8, log 17): with the base `sp`, some active element, the check on and `sp` no multiple of 16 the
outcome is the alignment fault, whatever the vector registers, memory and `MemAdmit` are. -/
def Obligations.MisalignedSpWithActiveElementFaults : Prop :=
  ∀ (s : State) (zt pg : Nat) (off : Int) (pv : ScalableBits) (b : Addr) (e : Nat),
    Enabled s.cfg → s.pAt pg = some pv → ActiveIn s.cfg pv e → s.sp = some b →
    s.cfg.spAlignCheck = true → b.toNat % 16 ≠ 0 →
    exec (.st2b zt pg .sp off) s = .fault .spAlignmentFault

/-- R36, R68: an alignment fault happens only with the base `sp`, the check on and `sp` misaligned; a base `X0` to `X30`
is never checked. -/
def Obligations.AlignmentFaultOnlyForMisalignedSp : Prop :=
  ∀ (s : State) (zt pg : Nat) (base : BaseReg) (off : Int),
    exec (.st2b zt pg base off) s = .fault .spAlignmentFault →
    base = .sp ∧ s.cfg.spAlignCheck = true ∧ ∃ b, s.sp = some b ∧ b.toNat % 16 ≠ 0

/-- R71, R85, R48, R87 item 8: with all earlier active bytes in loop order clear, the first active byte whose address is
not clear decides the outcome: refused if it lies in `ProgramText`, else a data abort at that address (the order of the
two: the spec's decisions D11 and D17, log 21). -/
def Obligations.FirstUnclearByteDecidesTheStop : Prop :=
  ∀ (s : State) (zt pg : Nat) (base : BaseReg) (off : Int) (pv v0 v1 : ScalableBits) (b : Addr) (e r : Nat),
    Enabled s.cfg → s.pAt pg = some pv → s.baseAt base = some b → s.zAt zt = some v0 →
    s.zAt ((zt + 1) % 32) = some v1 →
    (base = .sp → s.cfg.spAlignCheck = true → b.toNat % 16 = 0) →
    ActiveIn s.cfg pv e → r < 2 →
    (∀ e' r', ActiveIn s.cfg pv e' → r' < 2 → 2 * e' + r' < 2 * e + r →
      Clear s.cfg (descSt2b base) (storeAddress s.cfg base b off e' r')) →
    (s.cfg.programText.covers (storeAddress s.cfg base b off e r) = true →
      exec (.st2b zt pg base off) s = .refused (.storeToProgramText (storeAddress s.cfg base b off e r))) ∧
    (s.cfg.programText.covers (storeAddress s.cfg base b off e r) = false →
      s.cfg.memAdmit (storeAddress s.cfg base b off e r) (descSt2b base) = .fault →
      exec (.st2b zt pg base off) s = .fault (.dataAbort (storeAddress s.cfg base b off e r)))

/-- R74, R87 items 3 to 7 (decision D15 and D21, log 11): the checks come in the spec's order; each register without a
value faults at its read, `p[g]` before the base before `z[t]` before `z[(t+1) mod 32]`, all before any store. -/
def Obligations.ChecksAndReadsComeInTheSpecsOrder : Prop :=
  ∀ (s : State) (zt pg : Nat) (base : BaseReg) (off : Int),
    (s.cfg.featSve = false → s.cfg.featSme = false → exec (.st2b zt pg base off) s = .fault .undefined) ∧
    (s.cfg.featSve = true ∨ s.cfg.featSme = true → s.cfg.sveAccess = .trap →
      exec (.st2b zt pg base off) s = .fault .sveAccessTrap) ∧
    (Enabled s.cfg → s.pAt pg = none → exec (.st2b zt pg base off) s = .fault (.unwrittenRegister (.p pg))) ∧
    (∀ pv, Enabled s.cfg → s.pAt pg = some pv →
      (base = .sp → s.sp = none → exec (.st2b zt pg base off) s = .fault (.unwrittenRegister .sp)) ∧
      (∀ n, base = .x n → s.xAt n = none → exec (.st2b zt pg base off) s = .fault (.unwrittenRegister (.x n))) ∧
      (∀ b, s.baseAt base = some b → (base = .sp → s.cfg.spAlignCheck = true → b.toNat % 16 = 0) →
        (s.zAt zt = none → exec (.st2b zt pg base off) s = .fault (.unwrittenRegister (.z zt))) ∧
        (∀ v0, s.zAt zt = some v0 → s.zAt ((zt + 1) % 32) = none →
          exec (.st2b zt pg base off) s = .fault (.unwrittenRegister (.z ((zt + 1) % 32))))))

/-- R81, R87: an instruction stops only for its own reasons: the fetch's, the end's and `NotInSpec` are not among them,
and a data abort or a refused store is at the address of an active byte that is not clear. -/
def Obligations.InstructionStopsOnlyForItsOwnReasons : Prop :=
  ∀ (s : State) (zt pg : Nat) (base : BaseReg) (off : Int),
    exec (.st2b zt pg base off) s ≠ .fault .pcAlignment ∧
    exec (.st2b zt pg base off) s ≠ .refused .endOfRun ∧
    (∀ w, exec (.st2b zt pg base off) s ≠ .refused (.notInSpec w)) ∧
    (∀ n, exec (.st2b zt pg base off) s ≠ .refused (.notModelled n)) ∧
    (∀ a, exec (.st2b zt pg base off) s = .fault (.dataAbort a) ∨
        exec (.st2b zt pg base off) s = .refused (.storeToProgramText a) →
      ¬ Clear s.cfg (descSt2b base) a ∧
      ∃ pv b e r, s.pAt pg = some pv ∧ s.baseAt base = some b ∧ ActiveIn s.cfg pv e ∧ r < 2 ∧
        a = storeAddress s.cfg base b off e r)

/-- D21: a well-formed instruction never meets a register without a value when every register holds one, and a state that
a step reaches has values where the state before had (log 11). -/
def Obligations.ValuedRegistersNeverFaultAtARead : Prop :=
  ∀ (i : Instr) (s : State) (r : RegName), i.wf = true →
    (∀ n, n ≤ 30 → (s.xAt n).isSome = true) → s.sp.isSome = true → (∀ n, n ≤ 31 → (s.zAt n).isSome = true) →
    (∀ n, n ≤ 7 → (s.pAt n).isSome = true) →
    exec i s ≠ .fault (.unwrittenRegister r) ∧
    ∀ t, exec i s = .next t → ∀ j, j.wf = true → exec j t ≠ .fault (.unwrittenRegister r)

/-- Where ST2B completes, it was defined and enabled, its registers held values, every byte of every active structure was
clear, and a checked stack pointer base that stores something was aligned: the conditions (1), (2), (5) and (6) of R99, and
(4) where some element is active (with none, R68's draw decides). Condition (3), a `VL` that R5 permits, is no conclusion:
the model completes without it (the model's choice, log 9). -/
def Obligations.CompletionNeedsFeatureEnableValuesClearBytesAndAlignment : Prop :=
  ∀ (s t : State) (zt pg : Nat) (base : BaseReg) (off : Int), exec (.st2b zt pg base off) s = .next t →
    Enabled s.cfg ∧ (s.zAt zt).isSome = true ∧ (s.zAt ((zt + 1) % 32)).isSome = true ∧
    ∃ pv b, s.pAt pg = some pv ∧ s.baseAt base = some b ∧
      (∀ e r, ActiveIn s.cfg pv e → r < 2 → Clear s.cfg (descSt2b base) (storeAddress s.cfg base b off e r)) ∧
      ((∃ e, ActiveIn s.cfg pv e) → base = .sp → s.cfg.spAlignCheck = true → b.toNat % 16 = 0)

/-! ## ST2B: what it does not depend on -/

/-- R32: inactive structures are never written, and neither byte of one is accessed in any way: two configurations that
differ only in what `MemAdmit` and `ProgramText` say of addresses that are no active byte's give the same outcome, so a
refused address there raises no fault. The address of a structure does not depend on the predicate, so an inactive
structure leaves a gap of two bytes that keep what they held (`VL/4 ≤ 2^64` keeps the addresses different, R43). -/
def Obligations.InactiveStructuresAreNeverAccessed : Prop :=
  ∀ (s : State) (zt pg : Nat) (base : BaseReg) (off : Int) (pv : ScalableBits) (b : Addr),
    s.pAt pg = some pv → s.baseAt base = some b →
    (∀ (refused : List RefusedRange) (text : ProgramText),
      (∀ e r, ActiveIn s.cfg pv e → r < 2 →
        text.covers (storeAddress s.cfg base b off e r) =
          s.cfg.programText.covers (storeAddress s.cfg base b off e r) ∧
        ({ s.cfg with memRefused := refused } : Config).memAdmit (storeAddress s.cfg base b off e r) (descSt2b base) =
          s.cfg.memAdmit (storeAddress s.cfg base b off e r) (descSt2b base)) →
      exec (.st2b zt pg base off) { s with cfg := { s.cfg with memRefused := refused, programText := text } } =
        mapNext (fun t => { t with cfg := { s.cfg with memRefused := refused, programText := text } })
          (exec (.st2b zt pg base off) s)) ∧
    (∀ t e r, s.cfg.vl / 4 ≤ 2 ^ 64 → exec (.st2b zt pg base off) s = .next t → e < s.cfg.vl / 8 →
      ¬ ActiveIn s.cfg pv e → r < 2 →
      t.mem.read (storeAddress s.cfg base b off e r) = s.mem.read (storeAddress s.cfg base b off e r))

/-- R15, R20, R21, R27: the registers read are `p[g]`, the base, `z[t]` and `z[(t+1) mod 32]`: two states that differ in
other registers only give the same outcome. -/
def Obligations.OnlyOperandRegistersAreRead : Prop :=
  ∀ (s : State) (zt pg : Nat) (base : BaseReg) (off : Int) (x : Vector (Option Addr) 31) (sp : Option Addr)
    (z : Vector (Option ScalableBits) 32) (p : Vector (Option ScalableBits) 8),
    ({ s with x := x, sp := sp, z := z, p := p } : State).pAt pg = s.pAt pg →
    ({ s with x := x, sp := sp, z := z, p := p } : State).baseAt base = s.baseAt base →
    ({ s with x := x, sp := sp, z := z, p := p } : State).zAt zt = s.zAt zt →
    ({ s with x := x, sp := sp, z := z, p := p } : State).zAt ((zt + 1) % 32) = s.zAt ((zt + 1) % 32) →
    exec (.st2b zt pg base off) { s with x := x, sp := sp, z := z, p := p } =
      mapNext (fun t => { t with x := x, sp := sp, z := z, p := p }) (exec (.st2b zt pg base off) s)

/-- R27, R31: the instruction reads no data memory: over another memory it stops for the same reason or completes with
the same registers, and each byte is the same in both or is the byte the memory had before. -/
def Obligations.DataMemoryIsNeverRead : Prop :=
  ∀ (i : Instr) (s : State) (m : Memory), s.mem.wf = true → m.wf = true →
    (∀ k, exec i s = .fault k ↔ exec i { s with mem := m } = .fault k) ∧
    (∀ r, exec i s = .refused r ↔ exec i { s with mem := m } = .refused r) ∧
    (∀ t, exec i s = .next t → ∃ t', exec i { s with mem := m } = .next t' ∧ t' = { t with mem := t'.mem } ∧
      ∀ a, t'.mem.read a = t.mem.read a ∨ (t.mem.read a = s.mem.read a ∧ t'.mem.read a = m.read a))

/-- R22, R77: register bits at or above `VL` and predicate bits at or above `PL` are ignored: with them cleared the
outcome is the same, with them cleared. -/
def Obligations.BitsAboveTheVectorLengthAreIgnored : Prop :=
  ∀ (i : Instr) (s : State), exec i s.truncated = mapNext State.truncated (exec i s)

/-- R44 (decision D11), R75: whether and why the instruction stops does not depend on the values stored: with other
contents in the same vector registers it stops for the same reason or completes too. -/
def Obligations.StoredValuesNeverDecideTheOutcome : Prop :=
  ∀ (i : Instr) (s : State) (z : Vector (Option ScalableBits) 32),
    (∀ n : Nat, n ≤ 31 → (({ s with z := z } : State).zAt n).isSome = (s.zAt n).isSome) →
    (∀ k, exec i s = .fault k ↔ exec i { s with z := z } = .fault k) ∧
    (∀ r, exec i s = .refused r ↔ exec i { s with z := z } = .refused r) ∧
    ((∃ t, exec i s = .next t) ↔ ∃ t, exec i { s with z := z } = .next t)

/-- R23, R64: which of the two features is present makes no difference. -/
def Obligations.EitherFeatureGivesTheSameOutcome : Prop :=
  ∀ (i : Instr) (s : State) (sve sme : Bool), s.cfg.featSve = true ∨ s.cfg.featSme = true → sve = true ∨ sme = true →
    exec i { s with cfg := { s.cfg with featSve := sve, featSme := sme } } =
      mapNext (fun t => { t with cfg := { s.cfg with featSve := sve, featSme := sme } }) (exec i s)

/-- The table that stands for `MemAdmit` loses nothing: every function of an address and a descriptor is some table
(R6, D11; log 7). -/
def Obligations.EveryAdmissionFunctionIsATable : Prop :=
  ∀ f : Addr → AccDesc → Admit, ∃ refused : List RefusedRange, ∀ (cfg : Config) (a : Addr) (d : AccDesc),
    ({ cfg with memRefused := refused } : Config).memAdmit a d = f a d

/-! ## The machine -/

/-- R50: a state with nothing recorded, an aligned `pc` and a word there that decodes runs the decoded instruction. The
model's step adds nothing around `exec`: the meaning advances `pc`. -/
def Obligations.StepRunsTheDecodedInstruction : Prop :=
  ∀ (s : State) (w : Word32) (i : Instr), s.recorded = none → s.pc.toNat % 4 = 0 →
    s.cfg.programText.wordAt s.pc.toNat = some w → decodeWord w = .ok i → step s = exec i s

/-- R38, R86 (decision D2, log 20): a `pc` that is no multiple of 4 faults before anything is fetched. -/
def Obligations.MisalignedPcFaults : Prop :=
  ∀ s : State, s.recorded = none → (step s = .fault .pcAlignment ↔ s.pc.toNat % 4 ≠ 0)

/-- R60, R52 (decision D4, log 22): a fetched word that does not match the encoding is refused by name, and only such a
word is. -/
def Obligations.UnmatchedWordIsRefused : Prop :=
  ∀ (s : State) (w w' : Word32), s.recorded = none → s.pc.toNat % 4 = 0 →
    s.cfg.programText.wordAt s.pc.toNat = some w →
    (step s = .refused (.notInSpec w') ↔ w' = w ∧ w &&& 0xFFF0E000 ≠ 0xE430E000)

/-- R101 (decision D23, log 12): a state has no step, which the model answers by `endOfRun`, exactly when its `pc` is
aligned and outside `ProgramText` (nothing being recorded). -/
def Obligations.FinalStatesHaveNoStep : Prop :=
  ∀ s : State, s.recorded = none →
    (step s = .refused .endOfRun ↔ s.pc.toNat % 4 = 0 ∧ s.cfg.programText.wordAt s.pc.toNat = none) ∧
    (s.isFinal = true ↔ step s = .refused .endOfRun)

/-- R81 (decision D15, log 13): a recorded stop is never cleared and never steps again. -/
def Obligations.RecordedStopIsPermanent : Prop :=
  ∀ (s : State) (e : Stop) (free : Addr → Byte) (n : Nat), s.recorded = some e →
    step s = e.outcome ∧ runFor free n s = s ∧ s.isFinal = false

/-- R81, R88, R91 (decisions D15, D16; log 14): a fault is recorded, leaves every register and `pc` unchanged, and leaves
every byte of memory unchanged but, after a data abort, those of the active structures. -/
def Obligations.FaultKeepsRegistersPcAndOtherBytes : Prop :=
  ∀ (s : State) (k : Fault) (free : Addr → Byte), s.recorded = none → step s = .fault k →
    (afterStep free s).recorded = some (.fault k) ∧
    (afterStep free s).image = { s.image with mem := (afterStep free s).mem } ∧ (afterStep free s).cfg = s.cfg ∧
    ((∀ a, k ≠ .dataAbort a) → (afterStep free s).mem = s.mem) ∧
    (∀ zt pg base off pv b, fetchInstr s = .ok (.st2b zt pg base off) → s.pAt pg = some pv →
      s.baseAt base = some b → ∀ a, (∀ e r, ActiveIn s.cfg pv e → r < 2 → a ≠ storeAddress s.cfg base b off e r) →
        (afterStep free s).mem.read a = s.mem.read a)

/-- R81, R88: nothing a fault leaves unspecified can be seen by the host: after a fault it sees the same whatever the
free bytes are. -/
def Obligations.UnspecifiedBytesAreNeverSeen : Prop :=
  ∀ (s : State) (k : Fault) (free free' : Addr → Byte), step s = .fault k →
    (afterStep free s).hostView = (afterStep free' s).hostView

/-- The invariant (R5, R17, R38; canonical memory): every completed step keeps the configuration well-formed, `pc` a
multiple of 4 and the memory canonical. -/
def Obligations.StepKeepsTheInvariant : Prop :=
  ∀ s t : State, s.inv = true → step s = .next t → t.inv = true

/-- The invariant holds at reset and at every launch that meets the spec's constraints (R98, D20). -/
def Obligations.ResetAndLaunchMeetTheInvariant : Prop :=
  State.reset.inv = true ∧
  ∀ (cfg : Config) (l : LaunchState), cfg.wf = true → l.wf cfg = true → (State.launch cfg l).inv = true

/-- R78, R103 (decisions D2, D6): along a run no register, no configuration value and no recorded outcome changes, and
`pc` is 4 further for each step. -/
def Obligations.RunKeepsRegistersAndAdvancesPcByFour : Prop :=
  ∀ (k : Nat) (s t : State), Reaches k s t → SameRegisters s t ∧ t.pc = s.pc + BitVec.ofNat 64 (4 * k)

/-- R106 (derived by the spec from R101 and R73): a run whose `ProgramText` is a contiguous block of `k` words at `pc`
has ended (final, faulted or refused) after at most `k` steps, whatever the words are. -/
def Obligations.BlockRunEndsWithinItsLength : Prop :=
  ∀ (s : State) (ws : List Word32) (free : Addr → Byte), s.pc.toNat % 4 = 0 → ws.length < 2 ^ 62 →
    s.cfg.programText = ProgramText.block s.pc ws → Stopped (runFor free ws.length s)

/-- R35, R100 (decision D1, log 23): a program given as bytes, lowest address first, is fetched word for word from the
address it was loaded at. -/
def Obligations.LoadedBytesAreFetchedWordForWord : Prop :=
  ∀ (b : Addr) (ws : List Word32), textOfBytes b (ws.flatMap bytesOfWord) = ProgramText.block b ws ∧
    (b.toNat % 4 = 0 → ws.length < 2 ^ 62 →
      ∀ j w, ws[j]? = some w → (ProgramText.block b ws).wordAt (b + BitVec.ofNat 64 (4 * j)).toNat = some w)

/-- The host's placing of a word (log 5): the very next step runs the instruction; where `pc` is aligned and nothing is
recorded, only `ProgramText` changes. -/
def Obligations.PlacedWordIsWhatTheNextStepRuns : Prop :=
  ∀ (s : State) (i : Instr), i.wf = true →
    step (s.withFetchWord 32 (encode i).toNat) = exec i (s.withFetchWord 32 (encode i).toNat) ∧
    (s.pc.toNat % 4 = 0 → s.recorded = none →
      s.withFetchWord 32 (encode i).toNat =
        { s with cfg := { s.cfg with
          programText := ProgramText.put s.pc.toNat (encode i) s.cfg.programText } })

/-- The model's own choice (log 5): from `State.reset` nothing runs until the host has loaded a program. -/
def Obligations.ResetWaitsForAProgram : Prop :=
  step State.reset = .refused .endOfRun ∧ State.reset.isFinal = true
end

