-- ==== Sys2Proof/Laws/Decode.lean ====
section
/-! SUPPORT. The fields of a packed word, and what decoding answers (R51, R52). -/

namespace Sys2Proof

/-- The fixed bits of a packed word (R51, R52). -/
theorem packSt2b_fixed (imm4 : BitVec 4) (pg : BitVec 3) (rn zt : BitVec 5) :
    packSt2b imm4 pg rn zt &&& st2bMask = st2bMatch := by
  unfold packSt2b st2bMask st2bMatch
  refine BitVec.eq_of_getLsbD_eq fun i hi => ?_
  rw [BitVec.getLsbD_and]
  simp only [BitVec.getLsbD_append]
  interval_cases i <;> simp

theorem packSt2b_zt (imm4 : BitVec 4) (pg : BitVec 3) (rn zt : BitVec 5) :
    field (packSt2b imm4 pg rn zt) 4 0 = zt := by
  unfold packSt2b field
  refine BitVec.eq_of_getLsbD_eq fun i hi => ?_
  rw [BitVec.getLsbD_extractLsb]
  simp only [BitVec.getLsbD_append]
  interval_cases i <;> simp

theorem packSt2b_rn (imm4 : BitVec 4) (pg : BitVec 3) (rn zt : BitVec 5) :
    field (packSt2b imm4 pg rn zt) 9 5 = rn := by
  unfold packSt2b field
  refine BitVec.eq_of_getLsbD_eq fun i hi => ?_
  rw [BitVec.getLsbD_extractLsb]
  simp only [BitVec.getLsbD_append]
  interval_cases i <;> simp

theorem packSt2b_pg (imm4 : BitVec 4) (pg : BitVec 3) (rn zt : BitVec 5) :
    field (packSt2b imm4 pg rn zt) 12 10 = pg := by
  unfold packSt2b field
  refine BitVec.eq_of_getLsbD_eq fun i hi => ?_
  rw [BitVec.getLsbD_extractLsb]
  simp only [BitVec.getLsbD_append]
  interval_cases i <;> simp

theorem packSt2b_imm4 (imm4 : BitVec 4) (pg : BitVec 3) (rn zt : BitVec 5) :
    field (packSt2b imm4 pg rn zt) 19 16 = imm4 := by
  unfold packSt2b field
  refine BitVec.eq_of_getLsbD_eq fun i hi => ?_
  rw [BitVec.getLsbD_extractLsb]
  simp only [BitVec.getLsbD_append]
  interval_cases i <;> simp

/-- What a decoded word is (R52). -/
theorem decodeWord_eq_ok {w : Word32} {i : Instr} :
    decodeWord w = .ok i ↔ w &&& st2bMask = st2bMatch ∧
      i = .st2b (field w 4 0).toNat (field w 12 10).toNat (decodeBase (field w 9 5).toNat) (field w 19 16).toInt := by
  unfold decodeWord
  split_ifs with h <;> simp [h, eq_comm]

/-- Any other word is `NotInSpec` (R60). -/
theorem decodeWord_eq_error {w : Word32} {d : DecodeError} :
    decodeWord w = .error d ↔ w &&& st2bMask ≠ st2bMatch ∧ d = .notInSpec w := by
  unfold decodeWord
  split_ifs with h <;> simp [h, eq_comm]

end Sys2Proof
end

