-- ==== Sys2Proof/Laws/Memory.lean ====
section
/-! SUPPORT. The laws of data memory: a write reads back and leaves every other byte alone, the canonical form is kept,
and canonical memories that read alike are equal. -/

namespace Sys2Proof.Machine

/-! ## One key -/

theorem Memory.get_put_other (m : Memory) (k a : Nat) (b : Byte) (h : a ≠ k) :
    (Memory.put k b m).get a = m.get a := by
  induction m with
  | nil => by_cases hb : b = Memory.unlisted <;> simp [Memory.put, Memory.get, hb, h]
  | cons c rest ih =>
    obtain ⟨j, c⟩ := c
    simp only [Memory.put]
    split_ifs <;> subst_vars <;> simp_all [Memory.get]

theorem Memory.wfFrom_mono {lo lo' : Nat} (h : lo' ≤ lo) : ∀ {m : Memory}, m.wfFrom lo = true → m.wfFrom lo' = true
  | [], _ => rfl
  | (k, b) :: rest, hm => by
    simp only [Memory.wfFrom, Bool.and_eq_true, decide_eq_true_eq] at hm ⊢
    exact ⟨⟨⟨h.trans hm.1.1.1, hm.1.1.2⟩, hm.1.2⟩, hm.2⟩

/-- Below the first key the memory is unlisted. -/
theorem Memory.get_of_lt : ∀ {m : Memory} {lo a : Nat}, m.wfFrom lo = true → a < lo → m.get a = Memory.unlisted
  | [], _, _, _, _ => rfl
  | (k, b) :: rest, lo, a, hm, ha => by
    simp only [Memory.wfFrom, Bool.and_eq_true, decide_eq_true_eq] at hm
    have hk : a ≠ k := by omega
    simp only [Memory.get, hk, if_false]
    exact Memory.get_of_lt hm.2 (by omega)

theorem Memory.get_put_same : ∀ {m : Memory} {lo : Nat} (a : Nat) (b : Byte), m.wfFrom lo = true →
    (Memory.put a b m).get a = b
  | [], _, a, b, _ => by by_cases hb : b = Memory.unlisted <;> simp [Memory.put, Memory.get, hb]
  | (k, c) :: rest, lo, a, b, hm => by
    simp only [Memory.wfFrom, Bool.and_eq_true, decide_eq_true_eq] at hm
    have hlow : ∀ a < k + 1, Memory.get rest a = Memory.unlisted := fun a ha => Memory.get_of_lt hm.2 ha
    rcases lt_trichotomy a k with h | h | h
    · by_cases hb : b = Memory.unlisted
      · simp [Memory.put, Memory.get, h, hb, h.ne, hlow a (by omega)]
      · simp [Memory.put, Memory.get, h, hb]
    · subst h
      by_cases hb : b = Memory.unlisted
      · simp [Memory.put, hb, hlow a (by omega)]
      · simp [Memory.put, Memory.get, hb]
    · have h1 : ¬ a < k := by omega
      have h2 : ¬ a = k := by omega
      simp only [Memory.put, h1, h2, if_false, Memory.get]
      exact Memory.get_put_same a b hm.2

theorem Memory.wfFrom_put : ∀ {m : Memory} {lo a : Nat} {b : Byte}, m.wfFrom lo = true → lo ≤ a → a < 2 ^ 64 →
    (Memory.put a b m).wfFrom lo = true
  | [], lo, a, b, _, hlo, ha => by
    by_cases hb : b = Memory.unlisted <;> simp [Memory.put, Memory.wfFrom, hb, hlo]
    simpa using ha
  | (k, c) :: rest, lo, a, b, hm, hlo, ha => by
    have hm' := hm
    simp only [Memory.wfFrom, Bool.and_eq_true, decide_eq_true_eq] at hm'
    obtain ⟨⟨⟨h1, h2⟩, h3⟩, h4⟩ := hm'
    rcases lt_trichotomy a k with h | h | h
    · by_cases hb : b = Memory.unlisted
      · simpa [Memory.put, h, hb] using hm
      · have hk : Memory.wfFrom (a + 1) ((k, c) :: rest) = true := by
          simp only [Memory.wfFrom, Bool.and_eq_true, decide_eq_true_eq]
          exact ⟨⟨⟨by omega, h2⟩, h3⟩, h4⟩
        simp only [Memory.put, h, hb, if_true, if_false]
        rw [Memory.wfFrom, hk]
        simp only [Bool.and_eq_true, decide_eq_true_eq, and_true]
        exact ⟨⟨hlo, ha⟩, hb⟩
    · subst h
      by_cases hb : b = Memory.unlisted
      · simpa [Memory.put, hb] using Memory.wfFrom_mono (by omega) h4
      · simp only [Memory.put, lt_irrefl, hb, if_true, if_false]
        rw [Memory.wfFrom, h4]
        simp only [Bool.and_eq_true, decide_eq_true_eq, and_true]
        exact ⟨⟨hlo, ha⟩, hb⟩
    · have hn1 : ¬ a < k := by omega
      have hn2 : ¬ a = k := by omega
      simp only [Memory.put, hn1, hn2, if_false]
      rw [Memory.wfFrom, Memory.wfFrom_put h4 (by omega) ha]
      simp only [Bool.and_eq_true, decide_eq_true_eq, and_true]
      exact ⟨⟨h1, h2⟩, h3⟩

/-! ## Reads and writes at addresses -/

/-- What one byte write does to every read (R31). -/
theorem Memory.read_write {m : Memory} (hm : m.wf = true) (a a' : Addr) (b : Byte) :
    (m.write a b).read a' = if a' = a then b else m.read a' := by
  split_ifs with h
  · subst h; exact Memory.get_put_same a'.toNat b hm
  · exact Memory.get_put_other m a.toNat a'.toNat b (fun hh => h (BitVec.eq_of_toNat_eq hh))

/-- A write leaves every other byte alone, in every memory. -/
theorem Memory.read_write_other (m : Memory) {a a' : Addr} (b : Byte) (h : a' ≠ a) :
    (m.write a b).read a' = m.read a' :=
  Memory.get_put_other m a.toNat a'.toNat b (fun hh => h (BitVec.eq_of_toNat_eq hh))

/-- A write keeps the canonical form. -/
theorem Memory.wf_write {m : Memory} (hm : m.wf = true) (a : Addr) (b : Byte) : (m.write a b).wf = true :=
  Memory.wfFrom_put hm (Nat.zero_le _) a.isLt

/-- The memory after reset is canonical. -/
theorem Memory.wf_reset : State.reset.mem.wf = true := rfl

/-- Writing free values keeps the canonical form (R88). -/
theorem Memory.wf_writeFree (free : Addr → Byte) : ∀ (as : List Addr) {m : Memory}, m.wf = true →
    (Memory.writeFree free as m).wf = true
  | [], _, hm => hm
  | a :: rest, _, hm => Memory.wf_writeFree free rest (Memory.wf_write hm a (free a))

/-- Free values reach only the addresses they are written to (R88). -/
theorem Memory.read_writeFree_other (free : Addr → Byte) : ∀ (as : List Addr) (m : Memory) {a : Addr}, a ∉ as →
    (Memory.writeFree free as m).read a = m.read a
  | [], _, _, _ => rfl
  | b :: rest, m, a, h => by
    rw [List.mem_cons, not_or] at h
    rw [Memory.writeFree, Memory.read_writeFree_other free rest _ h.2, Memory.read_write_other m _ h.1]

theorem Memory.wfFrom_lt : ∀ {m : Memory} {lo k : Nat}, m.wfFrom lo = true → m.get k ≠ Memory.unlisted → k < 2 ^ 64
  | [], _, _, _, h => absurd rfl h
  | (j, c) :: rest, lo, k, hm, h => by
    simp only [Memory.wfFrom, Bool.and_eq_true, decide_eq_true_eq] at hm
    by_cases hk : k = j
    · omega
    · simp only [Memory.get, hk, if_false] at h
      exact Memory.wfFrom_lt hm.2 h

theorem Memory.eq_of_get : ∀ {m m' : Memory} {lo lo' : Nat}, m.wfFrom lo = true → m'.wfFrom lo' = true →
    (∀ k, m.get k = m'.get k) → m = m'
  | [], [], _, _, _, _, _ => rfl
  | [], (k, b) :: rest, _, _, _, hm', h => by
    simp only [Memory.wfFrom, Bool.and_eq_true, decide_eq_true_eq] at hm'
    exact absurd (by simpa [Memory.get] using (h k).symm) hm'.1.2
  | (k, b) :: rest, [], _, _, hm, _, h => by
    simp only [Memory.wfFrom, Bool.and_eq_true, decide_eq_true_eq] at hm
    exact absurd (by simpa [Memory.get] using h k) hm.1.2
  | (k, b) :: rest, (k', b') :: rest', lo, lo', hm, hm', h => by
    have hm1 := hm
    have hm1' := hm'
    simp only [Memory.wfFrom, Bool.and_eq_true, decide_eq_true_eq] at hm hm'
    have hlow : ∀ a, a ≤ k → Memory.get rest a = Memory.unlisted :=
      fun a ha => Memory.get_of_lt hm.2 (by omega)
    have hlow' : ∀ a, a ≤ k' → Memory.get rest' a = Memory.unlisted :=
      fun a ha => Memory.get_of_lt hm'.2 (by omega)
    have hkk : k = k' := by
      rcases lt_trichotomy k k' with hlt | heq | hlt
      · have := h k
        simp only [Memory.get, if_true, hlt.ne, if_false, hlow' k hlt.le] at this
        exact absurd this hm.1.2
      · exact heq
      · have := h k'
        simp only [Memory.get, if_true, hlt.ne, if_false, hlow k' hlt.le] at this
        exact absurd this.symm hm'.1.2
    subst hkk
    have hbb : b = b' := by simpa [Memory.get] using h k
    subst hbb
    congr 1
    refine Memory.eq_of_get hm.2 hm'.2 (fun a => ?_)
    by_cases ha : a = k
    · rw [ha, hlow k le_rfl, hlow' k le_rfl]
    · simpa [Memory.get, ha] using h a

/-- Canonical memories that read alike at every address are the same data. -/
theorem Memory.ext_read {m m' : Memory} (hm : m.wf = true) (hm' : m'.wf = true) (h : ∀ a, m.read a = m'.read a) :
    m = m' := by
  refine Memory.eq_of_get hm hm' (fun k => ?_)
  by_cases hk : k < 2 ^ 64
  · have := h (BitVec.ofNat 64 k)
    rwa [Memory.read, Memory.read, BitVec.toNat_ofNat, Nat.mod_eq_of_lt hk] at this
  · have h1 : m.get k = Memory.unlisted := by by_contra hne; exact hk (Memory.wfFrom_lt hm hne)
    have h2 : m'.get k = Memory.unlisted := by by_contra hne; exact hk (Memory.wfFrom_lt hm' hne)
    rw [h1, h2]

/-- Writing the byte an address already has changes nothing. -/
theorem Memory.write_read {m : Memory} (hm : m.wf = true) (a : Addr) : m.write a (m.read a) = m := by
  refine Memory.ext_read (Memory.wf_write hm a _) hm (fun a' => ?_)
  rw [Memory.read_write hm]
  split_ifs with h
  · rw [h]
  · rfl

end Sys2Proof.Machine
end

