-- ==== Sys2Proof/Laws/Ops.lean ====
section
/-! SUPPORT. For each shared operation, once, everything it can do: the proofs cite these and do not unfold it. -/

namespace Sys2Proof.Machine

/-! ## Results and outcomes -/

theorem Result.bind_eq_ok {α β : Type} {r : Result α} {f : α → Result β} {b : β} :
    (r >>= f) = .ok b ↔ ∃ a, r = .ok a ∧ f a = .ok b := by
  cases r with
  | ok a => exact ⟨fun h => ⟨a, rfl, h⟩, fun ⟨a', h, h'⟩ => by cases h; exact h'⟩
  | error e => exact ⟨fun h => (by cases h), fun ⟨_, h, _⟩ => (by cases h)⟩

theorem Result.bind_eq_error {α β : Type} {r : Result α} {f : α → Result β} {e : Stop} :
    (r >>= f) = .error e ↔ r = .error e ∨ ∃ a, r = .ok a ∧ f a = .error e := by
  cases r with
  | ok a => exact ⟨fun h => .inr ⟨a, rfl, h⟩, fun h => by
      rcases h with h | ⟨a', h, h'⟩
      · cases h
      · cases h; exact h'⟩
  | error e' => exact ⟨fun h => .inl (by cases h; rfl), fun h => by
      rcases h with h | ⟨a', h, h'⟩
      · cases h; rfl
      · cases h⟩

@[simp] theorem Result.ok_bind {α β : Type} (a : α) (f : α → Result β) :
    ((Except.ok a : Result α) >>= f) = f a := rfl

@[simp] theorem Result.error_bind {α β : Type} (e : Stop) (f : α → Result β) :
    ((Except.error e : Result α) >>= f) = .error e := rfl

@[simp] theorem Result.outcome_ok (s : State) : Result.outcome (.ok s) = .next s := rfl

@[simp] theorem Result.outcome_error (e : Stop) : Result.outcome (.error e) = e.outcome := rfl

@[simp] theorem Stop.outcome_ne_next {σ : Type} (e : Stop) (s : σ) : (e.outcome : Host.Outcome σ _ _) ≠ .next s := by
  cases e <;> simp [Stop.outcome]

theorem Stop.outcome_inj {σ : Type} {e e' : Stop} :
    (e.outcome : Host.Outcome σ Fault Refusal) = e'.outcome ↔ e = e' := by
  cases e <;> cases e' <;> simp [Stop.outcome]

theorem Result.outcome_eq_stop {r : Result State} {e : Stop} : r.outcome = e.outcome ↔ r = .error e := by
  cases r with
  | ok s => simpa using (Stop.outcome_ne_next e s).symm
  | error e' => simpa using Stop.outcome_inj

theorem Result.outcome_eq_next {r : Result State} {t : State} : r.outcome = .next t ↔ r = .ok t := by
  cases r with
  | ok s => simp
  | error e => simp

theorem Result.outcome_eq_fault {r : Result State} {k : Fault} :
    r.outcome = .fault k ↔ r = .error (.fault k) := by
  rcases r with (k' | r') | s <;> simp [Result.outcome, Stop.outcome]

theorem Result.outcome_eq_refused {r : Result State} {k : Refusal} :
    r.outcome = .refused k ↔ r = .error (.refuse k) := by
  rcases r with (k' | r') | s <;> simp [Result.outcome, Stop.outcome]

/-! ## Checks (R14) -/

theorem featureTest_eq (cfg : Config) :
    featureTest cfg = if cfg.featSve = true ∨ cfg.featSme = true then .ok () else .error (.fault .undefined) := by
  unfold featureTest raise
  cases cfg.featSve <;> cases cfg.featSme <;> rfl

theorem checkSVEEnabled_eq (cfg : Config) :
    checkSVEEnabled cfg = if cfg.sveAccess = .ok then .ok () else .error (.fault .sveAccessTrap) := by
  unfold checkSVEEnabled raise
  cases cfg.sveAccess <;> rfl

theorem readX_eq_ok {s : State} {n : Nat} {v : Addr} : readX s n = .ok v ↔ s.x[n]? = some (some v) := by
  unfold readX raise
  split <;> simp_all

theorem readSP_eq_ok {s : State} {v : Addr} : readSP s = .ok v ↔ s.sp = some v := by
  unfold readSP raise
  split <;> simp_all

theorem readZ_eq_ok {s : State} {i : Nat} {v : BitVec s.cfg.vl} :
    readZ s i = .ok v ↔ ∃ c, s.z[i]? = some (some c) ∧ v = BitVec.ofNat s.cfg.vl c := by
  unfold readZ raise
  split
  · next c h => simp [h, eq_comm]
  · next h => simpa using fun c hc => absurd hc (h c)

theorem readP_eq_ok {s : State} {g : Nat} {v : BitVec s.cfg.pl} :
    readP s g = .ok v ↔ ∃ c, s.p[g]? = some (some c) ∧ v = BitVec.ofNat s.cfg.pl c := by
  unfold readP raise
  split
  · next c h => simp [h, eq_comm]
  · next h => simpa using fun c hc => absurd hc (h c)

/-! What each read answers, in the words of `State.xAt` and its fellows (R11, R29). -/

theorem readX_eq (s : State) (n : Nat) :
    readX s n = match s.xAt n with
      | some v => .ok v
      | none => .error (.fault (.unwrittenRegister (.x n))) := by
  unfold readX State.xAt raise
  rcases s.x[n]? with _ | (_ | v) <;> rfl

theorem readSP_eq (s : State) :
    readSP s = match s.sp with
      | some v => .ok v
      | none => .error (.fault (.unwrittenRegister .sp)) := by
  unfold readSP raise
  cases s.sp <;> rfl

theorem readZ_eq (s : State) (i : Nat) :
    readZ s i = match s.zAt i with
      | some c => .ok (BitVec.ofNat s.cfg.vl c)
      | none => .error (.fault (.unwrittenRegister (.z i))) := by
  unfold readZ State.zAt raise
  rcases s.z[i]? with _ | (_ | v) <;> rfl

theorem readP_eq (s : State) (g : Nat) :
    readP s g = match s.pAt g with
      | some c => .ok (BitVec.ofNat s.cfg.pl c)
      | none => .error (.fault (.unwrittenRegister (.p g))) := by
  unfold readP State.pAt raise
  rcases s.p[g]? with _ | (_ | v) <;> rfl

/-- A check of the stack pointer passes exactly when `sp` has a value and is aligned, or the check is off or not made
(R68). -/
theorem checkSPAlignment_eq_ok {made : Bool} {s : State} :
    checkSPAlignment made s = .ok () ↔
      ∃ v, s.sp = some v ∧ ¬ (s.cfg.spAlignCheck = true ∧ v.toNat % 16 ≠ 0 ∧ made = true) := by
  unfold checkSPAlignment raise
  rw [Result.bind_eq_ok]
  refine exists_congr fun v => ?_
  rw [readSP_eq_ok, ← spMisaligned_eq_true_iff']
  refine and_congr_right fun _ => ?_
  cases s.cfg.spAlignCheck <;> cases spMisaligned v <;> cases made <;> simp
where
  spMisaligned_eq_true_iff' {v : Addr} : spMisaligned v = true ↔ v.toNat % 16 ≠ 0 := by
    unfold spMisaligned
    rw [bne_iff_ne, ne_eq, ← BitVec.toNat_inj]
    simp

/-! ## The store primitive (R13, R48, R85) -/

theorem storeByte_clear {cfg : Config} {desc : AccDesc} {a : Addr} (h : Clear cfg desc a) (b : Byte) (m : Memory) :
    storeByte cfg desc a b m = .ok (m.write a b) := by
  simp [storeByte, h.1, h.2]

theorem storeByte_not_clear {cfg : Config} {desc : AccDesc} {a : Addr} (h : ¬ Clear cfg desc a) (b : Byte)
    (m : Memory) : storeByte cfg desc a b m = .error (stopAt cfg a) := by
  unfold storeByte stopAt refuse raise
  by_cases hc : cfg.programText.covers a = true
  · simp [hc]
  · cases hadm : cfg.memAdmit a desc
    · exact absurd ⟨by simpa using hc, hadm⟩ h
    · simp [hc]

/-- The memory after a list of byte writes. -/
def Memory.writeAll : List (Addr × Byte) → Memory → Memory
  | [], m => m
  | (a, b) :: rest, m => Memory.writeAll rest (m.write a b)

@[simp] theorem storeAll_nil (cfg : Config) (desc : AccDesc) (m : Memory) : storeAll cfg desc [] m = .ok m := rfl

theorem storeAll_cons (cfg : Config) (desc : AccDesc) (a : Addr) (b : Byte) (rest : List (Addr × Byte)) (m : Memory) :
    storeAll cfg desc ((a, b) :: rest) m = (storeByte cfg desc a b m >>= storeAll cfg desc rest) := rfl

/-- Stores one after another succeed exactly when every address is clear, and then write every byte. -/
theorem storeAll_eq_ok {cfg : Config} {desc : AccDesc} : ∀ {l : List (Addr × Byte)} {m m' : Memory},
    storeAll cfg desc l m = .ok m' ↔ (∀ p ∈ l, Clear cfg desc p.1) ∧ m' = Memory.writeAll l m
  | [], m, m' => by simp [Memory.writeAll, eq_comm]
  | (a, b) :: rest, m, m' => by
    rw [storeAll_cons]
    by_cases h : Clear cfg desc a
    · rw [storeByte_clear h, Result.ok_bind, storeAll_eq_ok]
      simp [Memory.writeAll, h]
    · rw [storeByte_not_clear h]
      simp [h]

/-- Stores one after another stop exactly at the first address that is not clear (R87 item 8). -/
theorem storeAll_eq_error {cfg : Config} {desc : AccDesc} : ∀ {l : List (Addr × Byte)} {m : Memory} {e : Stop},
    storeAll cfg desc l m = .error e ↔ ∃ l1 a b l2, l = l1 ++ (a, b) :: l2 ∧ (∀ p ∈ l1, Clear cfg desc p.1) ∧
      ¬ Clear cfg desc a ∧ e = stopAt cfg a
  | [], m, e => by simp
  | (a, b) :: rest, m, e => by
    rw [storeAll_cons]
    by_cases h : Clear cfg desc a
    · rw [storeByte_clear h, Result.ok_bind, storeAll_eq_error]
      constructor
      · rintro ⟨l1, a', b', l2, rfl, h1, h2⟩
        exact ⟨(a, b) :: l1, a', b', l2, rfl, by simpa [h] using h1, h2⟩
      · rintro ⟨l1, a', b', l2, hl, h1, h2, h3⟩
        cases l1 with
        | nil => cases hl; exact absurd h h2
        | cons c l1 =>
          cases hl
          exact ⟨l1, a', b', l2, rfl, fun p hp => h1 p (List.mem_cons_of_mem _ hp), h2, h3⟩
    · rw [storeByte_not_clear h]
      constructor
      · intro he
        cases he
        exact ⟨[], a, b, rest, rfl, by simp, h, rfl⟩
      · rintro ⟨l1, a', b', l2, hl, h1, h2, h3⟩
        cases l1 with
        | nil => cases hl; simp [h3]
        | cons c l1 =>
          cases hl
          exact absurd (h1 _ (List.mem_cons_self)) h

/-! ## Many writes -/

theorem Memory.wf_writeAll : ∀ (l : List (Addr × Byte)) {m : Memory}, m.wf = true → (Memory.writeAll l m).wf = true
  | [], _, h => h
  | (a, b) :: rest, _, h => Memory.wf_writeAll rest (Memory.wf_write h a b)

/-- Writes leave every address they do not name alone. -/
theorem Memory.read_writeAll_other : ∀ (l : List (Addr × Byte)) (m : Memory) {a : Addr}, (∀ p ∈ l, a ≠ p.1) →
    (Memory.writeAll l m).read a = m.read a
  | [], _, _, _ => rfl
  | (a', b) :: rest, m, a, h => by
    rw [Memory.writeAll, Memory.read_writeAll_other rest _ (fun p hp => h p (List.mem_cons_of_mem _ hp)),
      Memory.read_write_other m b (h (a', b) List.mem_cons_self)]

/-- Writes to pairwise different addresses are all there afterwards. -/
theorem Memory.read_writeAll_mem : ∀ (l : List (Addr × Byte)) {m : Memory} {a : Addr} {b : Byte}, m.wf = true →
    (l.map Prod.fst).Nodup → (a, b) ∈ l → (Memory.writeAll l m).read a = b
  | (a', b') :: rest, m, a, b, hm, hnd, hmem => by
    rw [List.map_cons, List.nodup_cons] at hnd
    rcases List.mem_cons.1 hmem with h | h
    · cases h
      rw [Memory.writeAll, Memory.read_writeAll_other, Memory.read_write hm, if_pos rfl]
      intro p hp heq
      exact hnd.1 (List.mem_map.2 ⟨p, hp, heq.symm⟩)
    · exact Memory.read_writeAll_mem rest (Memory.wf_write hm a' b') hnd.2 h

end Sys2Proof.Machine
end

