-- ==== Sys2Proof/Laws/PerInstr.lean ====
section
/-! SUPPORT. Statements for all instructions, one lemma per constructor. -/

/-- The word of an instruction has the fixed bits of its row (R51, R52), whatever its operands. -/
def Sys2Proof.Laws.FixedBits.Statement (i : Sys2Proof.Instr) : Prop :=
  Sys2Proof.encode i &&& Sys2Proof.st2bMask = Sys2Proof.st2bMatch

theorem Sys2Proof.Laws.FixedBits.st2b (zt pg : Nat) (base : Sys2Proof.BaseReg) (off : Int) :
    Sys2Proof.Laws.FixedBits.Statement (.st2b zt pg base off) :=
  Sys2Proof.packSt2b_fixed _ _ _ _
end

