-- ==== Sys2Proof/Laws/State.lean ====
section
/-! SUPPORT. One lemma per field per update of the state, so that no later proof unfolds a record update. -/

namespace Sys2Proof.Machine

/-! ## `State.completed` (R27, R73) -/

@[simp] theorem State.completed_cfg (s : State) (m : Memory) (d : Nat) : (s.completed m d).cfg = s.cfg := rfl
@[simp] theorem State.completed_x (s : State) (m : Memory) (d : Nat) : (s.completed m d).x = s.x := rfl
@[simp] theorem State.completed_sp (s : State) (m : Memory) (d : Nat) : (s.completed m d).sp = s.sp := rfl
@[simp] theorem State.completed_pc (s : State) (m : Memory) (d : Nat) : (s.completed m d).pc = s.pc + 4 := rfl
@[simp] theorem State.completed_z (s : State) (m : Memory) (d : Nat) : (s.completed m d).z = s.z := rfl
@[simp] theorem State.completed_p (s : State) (m : Memory) (d : Nat) : (s.completed m d).p = s.p := rfl
@[simp] theorem State.completed_mem (s : State) (m : Memory) (d : Nat) : (s.completed m d).mem = m := rfl
@[simp] theorem State.completed_draws (s : State) (m : Memory) (d : Nat) :
    (s.completed m d).draws = s.draws + d := rfl
@[simp] theorem State.completed_recorded (s : State) (m : Memory) (d : Nat) :
    (s.completed m d).recorded = s.recorded := rfl

/-! ## `State.placeWord` (log 5) -/

@[simp] theorem State.placeWord_programText (s : State) (w : Word32) :
    (s.placeWord w).cfg.programText = ProgramText.put (alignDown s.pc).toNat w s.cfg.programText := rfl
@[simp] theorem State.placeWord_x (s : State) (w : Word32) : (s.placeWord w).x = s.x := rfl
@[simp] theorem State.placeWord_sp (s : State) (w : Word32) : (s.placeWord w).sp = s.sp := rfl
@[simp] theorem State.placeWord_pc (s : State) (w : Word32) : (s.placeWord w).pc = alignDown s.pc := rfl
@[simp] theorem State.placeWord_z (s : State) (w : Word32) : (s.placeWord w).z = s.z := rfl
@[simp] theorem State.placeWord_p (s : State) (w : Word32) : (s.placeWord w).p = s.p := rfl
@[simp] theorem State.placeWord_mem (s : State) (w : Word32) : (s.placeWord w).mem = s.mem := rfl
@[simp] theorem State.placeWord_draws (s : State) (w : Word32) : (s.placeWord w).draws = s.draws := rfl
@[simp] theorem State.placeWord_recorded (s : State) (w : Word32) : (s.placeWord w).recorded = none := rfl

/-! ## `State.recordStop` (R81, R88) -/

@[simp] theorem State.recordStop_cfg (free : Addr → Byte) (e : Stop) (s : State) :
    (s.recordStop free e).cfg = s.cfg := rfl
@[simp] theorem State.recordStop_x (free : Addr → Byte) (e : Stop) (s : State) : (s.recordStop free e).x = s.x := rfl
@[simp] theorem State.recordStop_sp (free : Addr → Byte) (e : Stop) (s : State) :
    (s.recordStop free e).sp = s.sp := rfl
@[simp] theorem State.recordStop_pc (free : Addr → Byte) (e : Stop) (s : State) :
    (s.recordStop free e).pc = s.pc := rfl
@[simp] theorem State.recordStop_z (free : Addr → Byte) (e : Stop) (s : State) : (s.recordStop free e).z = s.z := rfl
@[simp] theorem State.recordStop_p (free : Addr → Byte) (e : Stop) (s : State) : (s.recordStop free e).p = s.p := rfl
@[simp] theorem State.recordStop_mem (free : Addr → Byte) (e : Stop) (s : State) :
    (s.recordStop free e).mem = Memory.writeFree free (unspecifiedAfter e s) s.mem := rfl
@[simp] theorem State.recordStop_draws (free : Addr → Byte) (e : Stop) (s : State) :
    (s.recordStop free e).draws = s.draws := rfl
@[simp] theorem State.recordStop_recorded (free : Addr → Byte) (e : Stop) (s : State) :
    (s.recordStop free e).recorded = some e := rfl

/-! ## `State.launch` (R98) -/

@[simp] theorem State.launch_cfg (cfg : Config) (l : LaunchState) : (State.launch cfg l).cfg = cfg := rfl
@[simp] theorem State.launch_pc (cfg : Config) (l : LaunchState) : (State.launch cfg l).pc = l.pc := rfl
@[simp] theorem State.launch_mem (cfg : Config) (l : LaunchState) : (State.launch cfg l).mem = l.mem := rfl
@[simp] theorem State.launch_draws (cfg : Config) (l : LaunchState) : (State.launch cfg l).draws = 0 := rfl
@[simp] theorem State.launch_recorded (cfg : Config) (l : LaunchState) :
    (State.launch cfg l).recorded = none := rfl
@[simp] theorem State.launch_image (cfg : Config) (l : LaunchState) : (State.launch cfg l).image = l := rfl

end Sys2Proof.Machine
end

