-- ==== Sys2Proof/Laws/Text.lean ====
section
/-! SUPPORT. The laws of `ProgramText`: looking up after a `put`, and the canonical form. -/

namespace Sys2Proof

theorem ProgramText.wordAt_put (t : ProgramText) (a k : Nat) (w : Word32) :
    (ProgramText.put a w t).wordAt k = if k = a then some w else t.wordAt k := by
  induction t with
  | nil => by_cases h : k = a <;> simp [ProgramText.put, ProgramText.wordAt, h]
  | cons c rest ih =>
    obtain ⟨j, v⟩ := c
    simp only [ProgramText.put]
    split_ifs with h1 h2 h3 <;> simp_all [ProgramText.wordAt]

theorem ProgramText.wfFrom_mono {lo lo' : Nat} (h : lo' ≤ lo) :
    ∀ {t : ProgramText}, t.wfFrom lo = true → t.wfFrom lo' = true
  | [], _ => rfl
  | (k, w) :: rest, ht => by
    simp only [ProgramText.wfFrom, Bool.and_eq_true, decide_eq_true_eq] at ht ⊢
    exact ⟨⟨⟨h.trans ht.1.1.1, ht.1.1.2⟩, ht.1.2⟩, ht.2⟩

theorem ProgramText.wfFrom_put : ∀ {t : ProgramText} {lo a : Nat} {w : Word32}, t.wfFrom lo = true → lo ≤ a →
    a < 2 ^ 64 → a % 4 = 0 → (ProgramText.put a w t).wfFrom lo = true
  | [], lo, a, w, _, hlo, ha, h4 => by
    simp only [ProgramText.put, ProgramText.wfFrom, Bool.and_eq_true, decide_eq_true_eq, and_true]
    exact ⟨⟨hlo, ha⟩, h4⟩
  | (k, v) :: rest, lo, a, w, ht, hlo, ha, h4 => by
    simp only [ProgramText.wfFrom, Bool.and_eq_true, decide_eq_true_eq] at ht
    obtain ⟨⟨⟨h1, h2⟩, h3⟩, h5⟩ := ht
    simp only [ProgramText.put]
    split_ifs with h6 h7
    · simp only [ProgramText.wfFrom, Bool.and_eq_true, decide_eq_true_eq]
      exact ⟨⟨⟨hlo, ha⟩, h4⟩, ⟨⟨⟨by omega, h2⟩, h3⟩, h5⟩⟩
    · subst h7
      simp only [ProgramText.wfFrom, Bool.and_eq_true, decide_eq_true_eq]
      exact ⟨⟨⟨hlo, ha⟩, h4⟩, h5⟩
    · rw [ProgramText.wfFrom, ProgramText.wfFrom_put h5 (by omega) ha h4]
      simp only [Bool.and_eq_true, decide_eq_true_eq, and_true]
      exact ⟨⟨h1, h2⟩, h3⟩

/-- Adding a word at an aligned address keeps the canonical form (R6, R100). -/
theorem ProgramText.wf_put {t : ProgramText} (ht : t.wf = true) (a : Addr) (w : Word32) (h4 : a.toNat % 4 = 0) :
    (ProgramText.put a.toNat w t).wf = true :=
  ProgramText.wfFrom_put ht (Nat.zero_le _) a.isLt h4

/-- A word of the domain lies at a multiple of 4 (R100). -/
theorem ProgramText.aligned_of_wordAt : ∀ {t : ProgramText} {lo k : Nat} {w : Word32}, t.wfFrom lo = true →
    t.wordAt k = some w → k % 4 = 0
  | [], _, _, _, _, h => by simp [ProgramText.wordAt] at h
  | (j, v) :: rest, lo, k, w, ht, h => by
    simp only [ProgramText.wfFrom, Bool.and_eq_true, decide_eq_true_eq] at ht
    by_cases hk : k = j
    · rw [hk]; exact ht.1.2
    · simp only [ProgramText.wordAt, hk, if_false] at h
      exact ProgramText.aligned_of_wordAt ht.2 h

end Sys2Proof

namespace Sys2Proof.Machine

/-- Alignment of `pc` as arithmetic (R38). -/
theorem pcMisaligned_eq_false_iff (pc : Addr) : pcMisaligned pc = false ↔ pc.toNat % 4 = 0 := by
  unfold pcMisaligned
  rw [bne_eq_false_iff_eq, ← BitVec.toNat_inj]
  simp

theorem pcMisaligned_eq_true_iff (pc : Addr) : pcMisaligned pc = true ↔ pc.toNat % 4 ≠ 0 := by
  rw [← Bool.not_eq_false, pcMisaligned_eq_false_iff]

/-- The next `pc` of an aligned `pc` is aligned (R17). -/
theorem pcMisaligned_next {pc : Addr} (h : pcMisaligned pc = false) : pcMisaligned (nextPc pc) = false := by
  rw [pcMisaligned_eq_false_iff] at h ⊢
  rw [nextPc, BitVec.toNat_add]
  have : (4 : Addr).toNat = 4 := rfl
  rw [this]
  omega

@[simp] theorem alignDown_toNat (a : Addr) : (alignDown a).toNat = a.toNat - a.toNat % 4 := by
  have h := a.isLt
  have h4 : a.toNat % 4 < 2 ^ 64 := by omega
  rw [alignDown, BitVec.toNat_sub, BitVec.toNat_ofNat, Nat.mod_eq_of_lt h4]
  omega

theorem pcMisaligned_alignDown (a : Addr) : pcMisaligned (alignDown a) = false := by
  rw [pcMisaligned_eq_false_iff, alignDown_toNat]
  omega

/-- Stack pointer alignment as arithmetic (R37). -/
theorem spMisaligned_eq_false_iff (v : Addr) : spMisaligned v = false ↔ v.toNat % 16 = 0 := by
  unfold spMisaligned
  rw [bne_eq_false_iff_eq, ← BitVec.toNat_inj]
  simp

theorem spMisaligned_eq_true_iff (v : Addr) : spMisaligned v = true ↔ v.toNat % 16 ≠ 0 := by
  rw [← Bool.not_eq_false, spMisaligned_eq_false_iff]

end Sys2Proof.Machine
end

