-- ==== Sys2Proof/Laws/St2b.lean ====
section
/-! SUPPORT. ST2B, once: when it completes and with what state (R63), and which byte stores it makes (R71). -/

namespace Sys2Proof.Machine

/-! ## Predicates and elements (R12, R67) -/

/-- Byte element `e` is active exactly when bit `e` of the mask is 1 (R12). -/
@[simp] theorem activePredicateElement_byte {pl : Nat} (mask : BitVec pl) (e : Nat) :
    activePredicateElement mask e 8 = mask.getLsbD e := by
  simp [activePredicateElement]

/-- Among the low `PL` bits, bit `e` is the register's (R22). -/
theorem getLsbD_ofNat_of_lt {n c e : Nat} (h : e < n) : (BitVec.ofNat n c).getLsbD e = c.testBit e := by
  rw [BitVec.getLsbD_ofNat, decide_eq_true h, Bool.true_and]

/-- Some element is active exactly when some bit below `PL` is 1 (R12, R67). -/
theorem anyActiveElement_byte {pl : Nat} (mask : BitVec pl) :
    anyActiveElement mask 8 = true ↔ ∃ e < pl, mask.getLsbD e = true := by
  simp [anyActiveElement]

/-- Byte `e` of the low `VL` bits is byte `e` of the register (R20). -/
theorem elementSlice_ofNat {vl c e : Nat} (h : e < vl / 8) :
    elementSlice (BitVec.ofNat vl c) e 8 = BitVec.ofNat 8 (c / 2 ^ (8 * e)) := by
  refine BitVec.eq_of_getLsbD_eq fun i hi => ?_
  have h1 : e * 8 + i < vl := by omega
  simp only [elementSlice, BitVec.getLsbD_extractLsb', hi, decide_true, Bool.true_and, BitVec.getLsbD_ofNat, h1,
    Nat.testBit_div_two_pow]
  rw [show i + 8 * e = e * 8 + i from by omega]

/-! ## The byte stores (R71) -/

/-- A byte store of the loop is byte `r` of an active structure `e` (R71). -/
theorem mem_interleavedStores {pl vl elements : Nat} {mask : BitVec pl} {v0 v1 : BitVec vl} {addr0 : Addr}
    {desc : AccDesc} {q : Addr × Byte} :
    q ∈ interleavedStores elements mask v0 v1 addr0 desc ↔
      ∃ e < elements, mask.getLsbD e = true ∧
        (q = (structureAddress addr0 e 0 desc, elementSlice v0 e 8) ∨
          q = (structureAddress addr0 e 1 desc, elementSlice v1 e 8)) := by
  simp only [interleavedStores, List.mem_flatMap, List.mem_range, structureStores, activePredicateElement_byte]
  refine exists_congr fun e => and_congr_right fun _ => ?_
  split_ifs with h <;> simp [h]

theorem interleavedStores_succ {pl vl n : Nat} {mask : BitVec pl} {v0 v1 : BitVec vl} {addr0 : Addr}
    {desc : AccDesc} :
    interleavedStores (n + 1) mask v0 v1 addr0 desc =
      interleavedStores n mask v0 v1 addr0 desc ++ structureStores mask v0 v1 addr0 desc n := by
  simp [interleavedStores, List.range_succ]

/-- The address of byte `r` of structure `e` as a number (R71). -/
theorem structureAddress_toNat (addr0 : Addr) (e r : Nat) (desc : AccDesc) :
    (structureAddress addr0 e r desc).toNat = (addr0.toNat + (2 * e + r)) % 2 ^ 64 := by
  rw [structureAddress, addressIncrement, BitVec.toNat_ofNat]

/-- Within `2^64` bytes of the start no two bytes share an address, even across a wrap (R43). -/
theorem structureAddress_inj {addr0 : Addr} {desc : AccDesc} {e r e' r' : Nat} (hr : r < 2) (hr' : r' < 2)
    (he : 2 * e + r < 2 ^ 64) (he' : 2 * e' + r' < 2 ^ 64)
    (h : structureAddress addr0 e r desc = structureAddress addr0 e' r' desc) : e = e' ∧ r = r' := by
  have h1 := congrArg BitVec.toNat h
  rw [structureAddress_toNat, structureAddress_toNat] at h1
  omega

/-- The byte stores of one execution go to pairwise different addresses (R43). -/
theorem nodup_interleavedStores {pl vl : Nat} {mask : BitVec pl} {v0 v1 : BitVec vl} {addr0 : Addr} {desc : AccDesc} :
    ∀ {n : Nat}, 2 * n ≤ 2 ^ 64 → ((interleavedStores n mask v0 v1 addr0 desc).map Prod.fst).Nodup
  | 0, _ => by simp [interleavedStores]
  | n + 1, hn => by
    rw [interleavedStores_succ, List.map_append, List.nodup_append]
    refine ⟨nodup_interleavedStores (by omega), ?_, ?_⟩
    · unfold structureStores
      split_ifs
      · simp only [List.map_cons, List.map_nil, List.nodup_cons, List.mem_singleton, List.not_mem_nil,
          not_false_eq_true, List.nodup_nil, and_true]
        intro h
        have := structureAddress_inj (by omega) (by omega) (by omega) (by omega) h
        omega
      · simp
    · rintro a ha b hb rfl
      obtain ⟨q, hq, rfl⟩ := List.mem_map.1 ha
      obtain ⟨e, he, _, hq⟩ := mem_interleavedStores.1 hq
      unfold structureStores at hb
      split_ifs at hb
      · simp only [List.map_cons, List.map_nil, List.mem_cons, List.not_mem_nil, or_false] at hb
        rcases hq with rfl | rfl <;> rcases hb with hb | hb <;>
          · have := structureAddress_inj (by omega) (by omega) (by omega) (by omega) hb
            omega
      · simp at hb

/-! ## The plan (R63 steps 1 to 6) -/

theorem readBase_sp (s : State) : readBase s .sp = readSP s := rfl
theorem readBase_x (s : State) (n : Nat) : readBase s (.x n) = readX s n := rfl

/-- Everything the steps before the store loop can do when they do not stop (R63 steps 1 to 6). -/
theorem planSt2b_eq_ok {draw : Bool} {zt pg : Nat} {base : BaseReg} {off : Int} {s : State} {plan : StorePlan} :
    planSt2b draw zt pg base off s = .ok plan ↔
      (s.cfg.featSve = true ∨ s.cfg.featSme = true) ∧ s.cfg.sveAccess = .ok ∧
      ∃ mask, readP s pg = .ok mask ∧
      checkBaseAlignment base (anyActiveElement mask 8 || draw) s = .ok () ∧
      ∃ b, readBase s base = .ok b ∧
      ∃ v0, readZ s zt = .ok v0 ∧
      ∃ v1, readZ s (secondVector zt) = .ok v1 ∧
      plan = {
        desc := descSt2b base
        stores := interleavedStores s.cfg.elements mask v0 v1 (startAddress s.cfg b off (descSt2b base))
          (descSt2b base)
        draws := drawsUsed base (anyActiveElement mask 8) } := by
  unfold planSt2b
  rw [featureTest_eq, checkSVEEnabled_eq]
  by_cases hf : s.cfg.featSve = true ∨ s.cfg.featSme = true
  · by_cases ha : s.cfg.sveAccess = .ok
    · simp only [hf, ha, if_true, Result.ok_bind, true_and, Result.bind_eq_ok, pure, Except.pure,
        Except.ok.injEq]
      constructor
      · rintro ⟨mask, hm, ⟨⟩, hc, b, hb, v0, h0, v1, h1, rfl⟩
        exact ⟨mask, hm, hc, b, hb, v0, h0, v1, h1, rfl⟩
      · rintro ⟨mask, hm, hc, b, hb, v0, h0, v1, h1, rfl⟩
        exact ⟨mask, hm, (), hc, b, hb, v0, h0, v1, h1, rfl⟩
    · simp [hf, ha]
  · simp [hf]

/-- The name of the base register (R29). -/
def baseRegName : BaseReg → RegName
  | .x n => .x n
  | .sp => .sp

theorem readBase_eq (s : State) (base : BaseReg) :
    readBase s base = match s.baseAt base with
      | some v => .ok v
      | none => .error (.fault (.unwrittenRegister (baseRegName base))) := by
  cases base with
  | x n => exact readX_eq s n
  | sp => exact readSP_eq s

/-- What the alignment check of the operation answers (R68): it stops when `sp` is the base and has no value, or is
misaligned with the check on and made. -/
theorem checkBaseAlignment_eq (base : BaseReg) (made : Bool) (s : State) :
    checkBaseAlignment base made s = match base with
      | .x _ => .ok ()
      | .sp => match s.sp with
        | none => .error (.fault (.unwrittenRegister .sp))
        | some v =>
          if s.cfg.spAlignCheck = true ∧ v.toNat % 16 ≠ 0 ∧ made = true then .error (.fault .spAlignmentFault)
          else .ok () := by
  cases base with
  | x n => rfl
  | sp =>
    rw [checkBaseAlignment, checkSPAlignment, readSP_eq]
    cases hv : s.sp with
    | none => rfl
    | some v =>
      simp only [Result.ok_bind]
      have h := spMisaligned_eq_true_iff v
      cases s.cfg.spAlignCheck <;> cases hm : spMisaligned v <;> cases made <;> simp_all [raise]

/-- The steps before the store loop as one reading of the state (R63 steps 1 to 6, R87 items 3 to 7). -/
theorem planSt2b_eq (draw : Bool) (zt pg : Nat) (base : BaseReg) (off : Int) (s : State) :
    planSt2b draw zt pg base off s =
      if s.cfg.featSve = false ∧ s.cfg.featSme = false then .error (.fault .undefined)
      else if s.cfg.sveAccess = .trap then .error (.fault .sveAccessTrap)
      else match s.pAt pg with
        | none => .error (.fault (.unwrittenRegister (.p pg)))
        | some pv =>
          match checkBaseAlignment base (anyActiveElement (BitVec.ofNat s.cfg.pl pv) 8 || draw) s with
          | .error e => .error e
          | .ok () => match s.baseAt base with
            | none => .error (.fault (.unwrittenRegister (baseRegName base)))
            | some b => match s.zAt zt with
              | none => .error (.fault (.unwrittenRegister (.z zt)))
              | some v0 => match s.zAt (secondVector zt) with
                | none => .error (.fault (.unwrittenRegister (.z (secondVector zt))))
                | some v1 => .ok {
                    desc := descSt2b base
                    stores := interleavedStores s.cfg.elements (BitVec.ofNat s.cfg.pl pv)
                      (BitVec.ofNat s.cfg.vl v0) (BitVec.ofNat s.cfg.vl v1)
                      (startAddress s.cfg b off (descSt2b base)) (descSt2b base)
                    draws := drawsUsed base (anyActiveElement (BitVec.ofNat s.cfg.pl pv) 8) } := by
  unfold planSt2b
  rw [featureTest_eq, checkSVEEnabled_eq, readP_eq, readBase_eq, readZ_eq, readZ_eq]
  by_cases hf : s.cfg.featSve = false ∧ s.cfg.featSme = false
  · simp [hf.1, hf.2]
  · have hf' : s.cfg.featSve = true ∨ s.cfg.featSme = true := by
      cases h1 : s.cfg.featSve <;> cases h2 : s.cfg.featSme <;> simp_all
    rw [if_pos hf', if_neg hf]
    cases ha : s.cfg.sveAccess with
    | trap => rfl
    | ok =>
      rw [if_pos rfl, if_neg (by simp)]
      simp only [Result.ok_bind]
      cases s.pAt pg with
      | none => rfl
      | some pv =>
        simp only [Result.ok_bind]
        cases checkBaseAlignment base (anyActiveElement (BitVec.ofNat s.cfg.pl pv) 8 || draw) s with
        | error e => rfl
        | ok u =>
          cases s.baseAt base with
          | none => rfl
          | some b =>
            cases s.zAt zt with
            | none => rfl
            | some v0 => cases s.zAt (secondVector zt) <;> rfl

/-- Everything that can stop the steps before the store loop, and why (R87 items 3 to 7). -/
theorem planSt2b_eq_error {draw : Bool} {zt pg : Nat} {base : BaseReg} {off : Int} {s : State} {e : Stop}
    (h : planSt2b draw zt pg base off s = .error e) :
    (e = .fault .undefined ∧ s.cfg.featSve = false ∧ s.cfg.featSme = false) ∨
    (e = .fault .sveAccessTrap ∧ s.cfg.sveAccess = .trap) ∨
    (e = .fault .spAlignmentFault ∧ base = .sp ∧ s.cfg.spAlignCheck = true ∧
      ∃ b, s.sp = some b ∧ b.toNat % 16 ≠ 0) ∨
    (e = .fault (.unwrittenRegister (.p pg)) ∧ s.pAt pg = none) ∨
    (e = .fault (.unwrittenRegister (baseRegName base)) ∧ s.baseAt base = none) ∨
    (e = .fault (.unwrittenRegister (.z zt)) ∧ s.zAt zt = none) ∨
    (e = .fault (.unwrittenRegister (.z (secondVector zt))) ∧ s.zAt (secondVector zt) = none) := by
  rw [planSt2b_eq] at h
  by_cases h1 : s.cfg.featSve = false ∧ s.cfg.featSme = false
  · rw [if_pos h1] at h
    cases h
    exact .inl ⟨rfl, h1⟩
  rw [if_neg h1] at h
  by_cases h2 : s.cfg.sveAccess = .trap
  · rw [if_pos h2] at h
    cases h
    exact .inr (.inl ⟨rfl, h2⟩)
  rw [if_neg h2] at h
  refine .inr (.inr ?_)
  cases hp : s.pAt pg with
  | none =>
    rw [hp] at h
    cases h
    exact .inr (.inl ⟨rfl, rfl⟩)
  | some pv =>
    simp only [hp] at h
    cases hc : checkBaseAlignment base (anyActiveElement (BitVec.ofNat s.cfg.pl pv) 8 || draw) s with
    | error e' =>
      rw [hc] at h
      cases h
      rw [checkBaseAlignment_eq] at hc
      cases base with
      | x n => cases hc
      | sp =>
        cases hs : s.sp with
        | none =>
          rw [hs] at hc
          cases hc
          exact .inr (.inr (.inl ⟨rfl, hs⟩))
        | some v =>
          simp only [hs] at hc
          split_ifs at hc with hh
          cases hc
          exact .inl ⟨rfl, rfl, hh.1, v, rfl, hh.2.1⟩
    | ok u =>
      simp only [hc] at h
      refine .inr (.inr ?_)
      cases hb : s.baseAt base with
      | none =>
        rw [hb] at h
        cases h
        exact .inl ⟨rfl, rfl⟩
      | some b =>
        simp only [hb] at h
        refine .inr ?_
        cases h0 : s.zAt zt with
        | none =>
          rw [h0] at h
          cases h
          exact .inl ⟨rfl, rfl⟩
        | some v0 =>
          simp only [h0] at h
          cases h3 : s.zAt (secondVector zt) with
          | none =>
            rw [h3] at h
            cases h
            exact .inr ⟨rfl, rfl⟩
          | some v1 =>
            rw [h3] at h
            cases h

/-- The plan of an enabled execution whose registers hold values and whose stack pointer, if it is the base, is aligned
or not checked: the same for either value of the draw (R63, R68). -/
theorem planSt2b_of_valued {draw : Bool} {zt pg : Nat} {base : BaseReg} {off : Int} {s : State}
    {pv v0 v1 : ScalableBits} {b : Addr} (hen : Enabled s.cfg) (hp : s.pAt pg = some pv)
    (hb : s.baseAt base = some b) (h0 : s.zAt zt = some v0) (h1 : s.zAt (secondVector zt) = some v1)
    (hal : base = .sp → s.cfg.spAlignCheck = true → b.toNat % 16 = 0) :
    planSt2b draw zt pg base off s = .ok {
      desc := descSt2b base
      stores := interleavedStores s.cfg.elements (BitVec.ofNat s.cfg.pl pv)
        (BitVec.ofNat s.cfg.vl v0) (BitVec.ofNat s.cfg.vl v1)
        (startAddress s.cfg b off (descSt2b base)) (descSt2b base)
      draws := drawsUsed base (anyActiveElement (BitVec.ofNat s.cfg.pl pv) 8) } := by
  have hc : checkBaseAlignment base (anyActiveElement (BitVec.ofNat s.cfg.pl pv) 8 || draw) s = .ok () := by
    rw [checkBaseAlignment_eq]
    cases base with
    | x n => rfl
    | sp =>
      have hs : s.sp = some b := hb
      simp only [hs]
      rw [if_neg]
      rintro ⟨h1, h2, -⟩
      exact h2 (hal rfl h1)
  rw [planSt2b_eq]
  have hf : ¬ (s.cfg.featSve = false ∧ s.cfg.featSme = false) := by
    rcases hen.1 with h | h <;> simp [h]
  rw [if_neg hf, if_neg (by simp [hen.2])]
  simp only [hp, hc, hb, h0, h1]

/-- What a plan tells of the state it was made from: the operands' contents, and the plan said by them. -/
theorem planSt2b_ok_contents {draw : Bool} {zt pg : Nat} {base : BaseReg} {off : Int} {s : State} {plan : StorePlan}
    (h : planSt2b draw zt pg base off s = .ok plan) :
    Enabled s.cfg ∧ ∃ pv b v0 v1, s.pAt pg = some pv ∧ s.baseAt base = some b ∧ s.zAt zt = some v0 ∧
      s.zAt (secondVector zt) = some v1 ∧
      plan = {
        desc := descSt2b base
        stores := interleavedStores s.cfg.elements (BitVec.ofNat s.cfg.pl pv)
          (BitVec.ofNat s.cfg.vl v0) (BitVec.ofNat s.cfg.vl v1)
          (startAddress s.cfg b off (descSt2b base)) (descSt2b base)
        draws := drawsUsed base (anyActiveElement (BitVec.ofNat s.cfg.pl pv) 8) } := by
  obtain ⟨hf, ha, mask, hm, -, b, hb, v0, h0, v1, h1, hpl⟩ := planSt2b_eq_ok.1 h
  rw [readP_eq] at hm
  rw [readBase_eq] at hb
  rw [readZ_eq] at h0 h1
  cases hp : s.pAt pg with
  | none => rw [hp] at hm; cases hm
  | some pv =>
    cases hb' : s.baseAt base with
    | none => rw [hb'] at hb; cases hb
    | some b' =>
      cases h0' : s.zAt zt with
      | none => rw [h0'] at h0; cases h0
      | some c0 =>
        cases h1' : s.zAt (secondVector zt) with
        | none => rw [h1'] at h1; cases h1
        | some c1 =>
          rw [hp] at hm
          rw [hb'] at hb
          rw [h0'] at h0
          rw [h1'] at h1
          cases hm; cases hb; cases h0; cases h1
          exact ⟨⟨hf, ha⟩, _, _, _, _, rfl, rfl, rfl, rfl, hpl⟩

/-- The byte stores of an execution, said by the registers' contents: byte `r` of an active structure, at its address,
with the byte of the register (R71, R72). -/
theorem mem_stores_iff {cfg : Config} {pv v0 v1 : ScalableBits} {addr0 : Addr} {desc : AccDesc} {q : Addr × Byte} :
    q ∈ interleavedStores cfg.elements (BitVec.ofNat cfg.pl pv) (BitVec.ofNat cfg.vl v0) (BitVec.ofNat cfg.vl v1)
        addr0 desc ↔
      ∃ e, ActiveIn cfg pv e ∧
        (q = (structureAddress addr0 e 0 desc, registerByte v0 e) ∨
          q = (structureAddress addr0 e 1 desc, registerByte v1 e)) := by
  rw [mem_interleavedStores]
  refine exists_congr fun e => ?_
  unfold ActiveIn registerByte
  constructor
  · rintro ⟨he, ha, h⟩
    have he' : e < cfg.vl / 8 := he
    rw [getLsbD_ofNat_of_lt (n := cfg.pl) he'] at ha
    rw [elementSlice_ofNat he', elementSlice_ofNat he'] at h
    exact ⟨⟨he', ha⟩, h⟩
  · rintro ⟨⟨he, ha⟩, h⟩
    refine ⟨he, ?_, ?_⟩
    · rw [getLsbD_ofNat_of_lt (n := cfg.pl) he]; exact ha
    · rw [elementSlice_ofNat he, elementSlice_ofNat he]; exact h

/-! ## The instruction (R63) -/

/-- ST2B completes exactly when its plan stands and every byte store is clear; then memory has every byte and `pc` is
the next one. -/
theorem st2b_eq_ok {draw : Bool} {zt pg : Nat} {base : BaseReg} {off : Int} {s t : State} :
    st2b draw zt pg base off s = .ok t ↔
      ∃ plan, planSt2b draw zt pg base off s = .ok plan ∧ (∀ q ∈ plan.stores, Clear s.cfg plan.desc q.1) ∧
        t = s.completed (Memory.writeAll plan.stores s.mem) plan.draws := by
  unfold st2b
  rw [Result.bind_eq_ok]
  refine exists_congr fun plan => and_congr_right fun _ => ?_
  rw [Result.bind_eq_ok]
  constructor
  · rintro ⟨m, hm, ht⟩
    obtain ⟨hc, rfl⟩ := storeAll_eq_ok.1 hm
    exact ⟨hc, by cases ht; rfl⟩
  · rintro ⟨hc, rfl⟩
    exact ⟨_, storeAll_eq_ok.2 ⟨hc, rfl⟩, rfl⟩

/-- What a next state of ST2B is. -/
theorem execSt2b_eq_next {zt pg : Nat} {base : BaseReg} {off : Int} {s t : State} :
    execSt2b zt pg base off s = .next t ↔
      ∃ plan, planSt2b (Config.checkSpNoneActive s.draws) zt pg base off s = .ok plan ∧
        (∀ q ∈ plan.stores, Clear s.cfg plan.desc q.1) ∧
        t = s.completed (Memory.writeAll plan.stores s.mem) plan.draws := by
  rw [execSt2b, Result.outcome_eq_next, st2b_eq_ok]

/-- What stops ST2B: its plan, or the first of its byte stores at an address that is not clear (R87). -/
theorem execSt2b_eq_stop {zt pg : Nat} {base : BaseReg} {off : Int} {s : State} {e : Stop} :
    execSt2b zt pg base off s = e.outcome ↔
      planSt2b (Config.checkSpNoneActive s.draws) zt pg base off s = .error e ∨
      ∃ plan, planSt2b (Config.checkSpNoneActive s.draws) zt pg base off s = .ok plan ∧
        ∃ l1 a b l2, plan.stores = l1 ++ (a, b) :: l2 ∧ (∀ q ∈ l1, Clear s.cfg plan.desc q.1) ∧
          ¬ Clear s.cfg plan.desc a ∧ e = stopAt s.cfg a := by
  rw [execSt2b, Result.outcome_eq_stop, st2b, Result.bind_eq_error]
  refine or_congr_right (exists_congr fun plan => and_congr_right fun _ => ?_)
  rw [Result.bind_eq_error, storeAll_eq_error]
  exact or_iff_left (fun ⟨_, _, h⟩ => by cases h)

/-- Whatever instruction completes, it leaves the state as R27 says: some memory, some draws counted, the next `pc`. -/
theorem exec_eq_next {i : Instr} {s t : State} (h : exec i s = .next t) :
    ∃ l d, t = s.completed (Memory.writeAll l s.mem) d := by
  cases i with
  | st2b zt pg base off =>
    obtain ⟨plan, _, _, rfl⟩ := execSt2b_eq_next.1 h
    exact ⟨plan.stores, plan.draws, rfl⟩

end Sys2Proof.Machine
end

