-- ==== Sys2Proof/Laws/Step.lean ====
section
/-! SUPPORT. One step, once: what a next state, a fault and a refusal of it come from (R50, R81, R101). -/

namespace Sys2Proof.Machine

theorem fetch_eq_ok {s : State} {w : Word32} :
    fetch s = .ok w ↔ pcMisaligned s.pc = false ∧ s.cfg.programText.wordAt s.pc.toNat = some w := by
  unfold fetch raise refuse
  cases pcMisaligned s.pc <;> cases s.cfg.programText.wordAt s.pc.toNat <;> simp

theorem decodeStep_eq_ok {w : Word32} {i : Instr} : decodeStep w = .ok i ↔ decodeWord w = .ok i := by
  unfold decodeStep refuse
  cases decodeWord w <;> simp

theorem decodeStep_eq_error {w : Word32} {e : Stop} :
    decodeStep w = .error e ↔ (∃ d, decodeWord w = .error d) ∧ e = .refuse (.notInSpec w) := by
  unfold decodeStep refuse
  cases decodeWord w <;> simp [eq_comm]

/-- The instruction a step runs is the decoding of the word at `pc` (R50). -/
theorem fetchInstr_eq_ok {s : State} {i : Instr} :
    fetchInstr s = .ok i ↔ pcMisaligned s.pc = false ∧
      ∃ w, s.cfg.programText.wordAt s.pc.toNat = some w ∧ decodeWord w = .ok i := by
  unfold fetchInstr
  rw [Result.bind_eq_ok]
  constructor
  · rintro ⟨w, hw, hi⟩
    exact ⟨(fetch_eq_ok.1 hw).1, w, (fetch_eq_ok.1 hw).2, decodeStep_eq_ok.1 hi⟩
  · rintro ⟨hp, w, hw, hi⟩
    exact ⟨w, fetch_eq_ok.2 ⟨hp, hw⟩, decodeStep_eq_ok.2 hi⟩

theorem step_of_recorded {s : State} {e : Stop} (h : s.recorded = some e) : step s = e.outcome := by
  simp [step, h]

theorem step_of_fetch {s : State} {i : Instr} (h : s.recorded = none) (hi : fetchInstr s = .ok i) :
    step s = exec i s := by
  simp [step, h, hi]

theorem step_of_no_fetch {s : State} {e : Stop} (h : s.recorded = none) (he : fetchInstr s = .error e) :
    step s = e.outcome := by
  simp [step, h, he]

/-- Everything a step that completes can be (R81). -/
theorem step_eq_next {s t : State} :
    step s = .next t ↔ s.recorded = none ∧ ∃ i, fetchInstr s = .ok i ∧ exec i s = .next t := by
  constructor
  · intro h
    cases hr : s.recorded with
    | some e => exact absurd ((step_of_recorded hr).symm.trans h) (Stop.outcome_ne_next e t)
    | none =>
      refine ⟨rfl, ?_⟩
      cases hi : fetchInstr s with
      | error e => exact absurd ((step_of_no_fetch hr hi).symm.trans h) (Stop.outcome_ne_next e t)
      | ok i => exact ⟨i, rfl, by rw [← step_of_fetch hr hi, h]⟩
  · rintro ⟨hr, i, hi, h⟩
    rw [step_of_fetch hr hi, h]

/-- What any completed step leaves (R27, R73). -/
theorem step_next_completed {s t : State} (h : step s = .next t) :
    ∃ l d, t = s.completed (Memory.writeAll l s.mem) d :=
  let ⟨_, _, _, hi⟩ := step_eq_next.1 h
  exec_eq_next hi

/-- Free bytes reach only what the stop leaves unspecified, and the canonical form is kept (R88). -/
theorem State.recordStop_read_other (free : Addr → Byte) (e : Stop) (s : State) {a : Addr}
    (h : a ∉ unspecifiedAfter e s) : (s.recordStop free e).mem.read a = s.mem.read a :=
  Memory.read_writeFree_other free _ s.mem h

theorem State.recordStop_wf (free : Addr → Byte) (e : Stop) {s : State} (h : s.mem.wf = true) :
    (s.recordStop free e).mem.wf = true :=
  Memory.wf_writeFree free _ h

end Sys2Proof.Machine
end

