-- ==== Sys2Proof/Machine/Flags.lean ====
section
/-! DEFINITION. Flag computations: the spec has none. ST2B reads no condition flag and writes none, and no flag is state
of the model (spec/10_state.md R18; spec/40_st2b.md R63, "Flags written: None"). The predicate that governs the store is
a register, not a flag (R18); its helpers are in Sys2Proof/Machine/Operands.lean. -/
end

