-- ==== Sys2Proof/Tests/Slice0.lean ====
section
/-! SUPPORT. The model's own tests, every expected value from spec/95_test_vectors.md or worked out by hand from the
rule named, and for each statement with hypotheses a concrete case that meets them. -/

namespace Sys2Proof.Tests

open Sys2Proof.Machine

/-! ## Well-formedness: for each check a term it refuses, beside an accepted neighbour (R53 to R56) -/

theorem test_wf_largest : (Instr.st2b 31 7 (.x 30) 7).wf = true := by decide
theorem test_wf_smallest : (Instr.st2b 0 0 .sp (-8)).wf = true := by decide
theorem test_wf_refuses_z32 : (Instr.st2b 32 7 (.x 30) 7).wf = false := by decide
theorem test_wf_refuses_p8 : (Instr.st2b 31 8 (.x 30) 7).wf = false := by decide
theorem test_wf_refuses_x31 : (Instr.st2b 31 7 (.x 31) 7).wf = false := by decide
theorem test_wf_refuses_off_below : (Instr.st2b 0 0 .sp (-9)).wf = false := by decide
theorem test_wf_refuses_off_above : (Instr.st2b 31 7 (.x 30) 8).wf = false := by decide

/-! ## Decode and encode (spec/95_test_vectors.md 2.1 and 2.2) -/

/-- E3, E7 and E10, their binary column written out. -/
theorem test_decode_e3 :
    decodeWord 0b11100100001111111110000000000000 = .ok (.st2b 0 0 (.x 0) (-1)) := by decide
theorem test_decode_e7 :
    decodeWord 0b11100100001100001111011111011110 = .ok (.st2b 30 5 (.x 30) 0) := by decide
theorem test_decode_e10 :
    decodeWord 0b11100100001100001110000000011111 = .ok (.st2b 31 0 (.x 0) 0) := by decide

/-- E4 and E5 from their bytes, lowest address first. -/
theorem test_decode_e4_bytes : decodeBytes [0x24, 0xEE, 0x37, 0xE4] = .ok (.st2b 4 3 (.x 17) 7) := by decide
theorem test_decode_e5_bytes : decodeBytes [0xFF, 0xFF, 0x38, 0xE4] = .ok (.st2b 31 7 .sp (-8)) := by decide
theorem test_decode_three_bytes : decodeBytes [0xFF, 0xFF, 0x38] = .error (.notFourBytes 3) := by decide
theorem test_encode_e8 : encode (.st2b 3 1 (.x 2) 3) = 0xE433E443 := by decide

/-- Section 2.2: `opc` and `msz` flipped, and a word that is another instruction. -/
theorem test_decode_refuses_opc : decodeWord 0xE410E000 = .error (.notInSpec 0xE410E000) := by decide
theorem test_decode_refuses_msz : decodeWord 0xE4B0E000 = .error (.notInSpec 0xE4B0E000) := by decide
theorem test_decode_refuses_other : decodeWord 0xD503201F = .error (.notInSpec 0xD503201F) := by decide

/-! ## The assembler (spec/95_test_vectors.md A1, A4, A6; E9) -/

theorem test_assemble_refuses_odd : assemble ⟨0, 1, 0, .x 0, some 1⟩ = .error .oddImmediate := by decide
theorem test_assemble_refuses_pair : assemble ⟨0, 2, 0, .x 0, none⟩ = .error .notTheNextVector := by decide
theorem test_assemble_refuses_z32 : assemble ⟨31, 32, 0, .x 0, none⟩ = .error .notTheNextVector := by decide
theorem test_disassemble_e9 : disassemble (.st2b 10 2 (.x 9) (-4)) = ⟨10, 11, 2, .x 9, some (-8)⟩ := by decide
theorem test_asmText_e5 : asmText (disassemble (.st2b 31 7 .sp (-8))) =
    "ST2B " ++ String.singleton (Char.ofNat 123) ++ " Z31.B, Z0.B " ++ String.singleton (Char.ofNat 125)
      ++ ", P7, [SP, #-16, MUL VL]" := by decide

/-! ## A small state: the pattern register file and default set-up of spec/95_test_vectors.md -/

/-- Byte `e` of `z[i]` is `(16 * i + e) mod 256`. -/
def patternZ (i : Nat) : ScalableBits :=
  (List.range 16).foldr (fun e acc => acc * 256 + (16 * i + e) % 256) 0

/-- The default configuration, pattern vectors, `pc = 0x400000`, `x[0]` and `sp` and `p[0]` as given; `p[1]` is 0. -/
def demo (x0 sp : Addr) (p0 : ScalableBits) : State :=
  { State.reset with
    x := State.reset.x.set 0 (some x0)
    sp := some sp
    pc := 0x400000
    z := .ofFn fun i => some (patternZ i)
    p := State.reset.p.set 0 (some p0) }

/-- `MemAdmit(a) = fault` for `a >= 0x3000` (F6 to F8). -/
def refuseFrom3000 (base : BaseReg) : List RefusedRange :=
  [⟨0x3000, 0xFFFFFFFFFFFFFFFF, descSt2b base⟩]

/-- F6 to F8: `x[0] = 0x2FF8`, every address from `0x3000` on refused. -/
def demoRefused (p0 : ScalableBits) : State :=
  { demo 0x2FF8 0x7FF0 p0 with cfg := { resetConfig with memRefused := refuseFrom3000 (.x 0) } }

/-- What stopped a step, if anything did. -/
def stopOf : Host.Outcome State Fault Refusal → Option Stop
  | .next _ => none
  | .fault k => some (.fault k)
  | .refused r => some (.refuse r)

/-- A property of the next state. -/
def nextHas (f : State → Bool) : Host.Outcome State Fault Refusal → Bool
  | .next s => f s
  | _ => false

theorem exists_next {o : Host.Outcome State Fault Refusal} {f : State → Bool} (h : nextHas f o = true) :
    ∃ t, o = .next t ∧ f t = true := by
  cases o with
  | next t => exact ⟨t, rfl, h⟩
  | fault k => cases h
  | refused r => cases h

theorem eq_of_stopOf {o : Host.Outcome State Fault Refusal} {e : Stop} (h : stopOf o = some e) : o = e.outcome := by
  cases o <;> cases h <;> rfl

/-! ## One step of ST2B -/

/-- X3: `Z31` and `Z0`, base `sp`, elements 0 and 1: `[7FF0]=F0 [7FF1]=00 [7FF2]=F1 [7FF3]=01`, and no other byte. -/
theorem test_step_x3 :
    nextHas (fun t => t.pc == 0x400004 && t.mem == [(0x7FF0, 0xF0), (0x7FF2, 0xF1), (0x7FF3, 0x01)])
      (step (({ demo 0x2000 0x7FF0 0 with p := State.reset.p.set 7 (some 3) } : State).withFetchWord 32 0xE430FFFF))
      = true := by decide

/-- F8: elements 4 to 7 are inactive at refused addresses; element 8 is the first active refused one. -/
theorem test_step_f8 :
    stopOf (step ((demoRefused 0x0F0F).withFetchWord 32 0xE430E000)) = some (.fault (.dataAbort 0x3008)) := by decide

/-! ## Each statement's hypotheses are met -/

/-- A bounded check of the active bytes answers for all of them. -/
theorem clear_of_bounded {cfg : Config} {pv : ScalableBits} {base : BaseReg} {b : Addr} {off : Int} {n : Nat}
    (hn : cfg.vl / 8 = n)
    (h : ((List.range n).all fun e => (List.range 2).all fun r => !pv.testBit e ||
      (!cfg.programText.covers (storeAddress cfg base b off e r) &&
        decide (cfg.memAdmit (storeAddress cfg base b off e r) (descSt2b base) = .ok))) = true) :
    ∀ e r, ActiveIn cfg pv e → r < 2 → Clear cfg (descSt2b base) (storeAddress cfg base b off e r) := by
  intro e r he hr
  have h1 := List.all_eq_true.1 (List.all_eq_true.1 h e (List.mem_range.2 (hn ▸ he.1))) r (List.mem_range.2 hr)
  rw [he.2] at h1
  simpa [Clear] using h1

theorem witness_DecodeOfEncodeIsTheInstruction :
    (Instr.st2b 31 7 .sp (-8)).wf = true ∧ (Instr.st2b 0 0 (.x 30) 7).wf = true := by decide

theorem witness_EncodeOfDecodeIsTheWord : decodeWord 0xE438FFFF = .ok (.st2b 31 7 .sp (-8)) := by decide

/-- The lowest and highest fixed bits, and the field bits beside them. -/
theorem witness_OneFlippedBitLeavesTheEncodingExactlyWhenFixed :
    decodeWord 0xE430E000 = .ok (.st2b 0 0 (.x 0) 0) ∧
    (12 < 13 ∧ 13 < 16) ∧ (12 < 15 ∧ 15 < 16) ∧ 19 < 20 ∧ 31 < 32 ∧ 12 < 13 ∧ (15 < 16 ∧ 19 < 20) ∧
    decodeWord (0xE430E000 ^^^ (1#32 <<< 13)) = .error (.notInSpec 0xE430C000) ∧
    decodeWord (0xE430E000 ^^^ (1#32 <<< 16)) = .ok (.st2b 0 0 (.x 0) 1) := by decide

theorem witness_AssemblerAgreesWithTheEncoding :
    (Instr.st2b 31 7 .sp (-8)).wf = true ∧ assemble ⟨31, 0, 7, .sp, some (-16)⟩ = .ok (.st2b 31 7 .sp (-8)) ∧
    assemble ⟨4, 5, 3, .x 17, some 14⟩ = .ok (.st2b 4 3 (.x 17) 7) := by decide

/-- F7, base `x[0]`: the refused addresses belong to inactive structures; and X3, base `sp`. -/
theorem witness_St2bInterleavesActiveBytesAndCompletes :
    (Enabled (demoRefused 0xF).cfg ∧ (demoRefused 0xF).cfg.vl / 4 ≤ 2 ^ 64 ∧ (demoRefused 0xF).mem.wf = true ∧
      (demoRefused 0xF).pAt 0 = some 0xF ∧ (demoRefused 0xF).baseAt (.x 0) = some 0x2FF8 ∧
      (demoRefused 0xF).zAt 0 = some (patternZ 0) ∧ (demoRefused 0xF).zAt ((0 + 1) % 32) = some (patternZ 1) ∧
      (∀ e r, ActiveIn (demoRefused 0xF).cfg 0xF e → r < 2 →
        Clear (demoRefused 0xF).cfg (descSt2b (.x 0)) (storeAddress (demoRefused 0xF).cfg (.x 0) 0x2FF8 0 e r))) ∧
    (Enabled (demo 0 0x7FF0 3).cfg ∧ (demo 0 0x7FF0 3).pAt 0 = some 3 ∧ (demo 0 0x7FF0 3).baseAt .sp = some 0x7FF0 ∧
      (demo 0 0x7FF0 3).zAt 31 = some (patternZ 31) ∧ (demo 0 0x7FF0 3).zAt ((31 + 1) % 32) = some (patternZ 0) ∧
      (0x7FF0 : Addr).toNat % 16 = 0 ∧
      (∀ e r, ActiveIn (demo 0 0x7FF0 3).cfg 3 e → r < 2 →
        Clear (demo 0 0x7FF0 3).cfg (descSt2b .sp) (storeAddress (demo 0 0x7FF0 3).cfg .sp 0x7FF0 (-8) e r))) := by
  refine ⟨⟨⟨.inl rfl, rfl⟩, by decide, rfl, by decide, by decide, by decide, by decide, ?_⟩,
    ⟨⟨.inl rfl, rfl⟩, by decide, by decide, by decide, by decide, by decide, ?_⟩⟩
  · exact clear_of_bounded (n := 16) rfl (by decide)
  · exact clear_of_bounded (n := 16) rfl (by decide)

/-- No element is active under a predicate whose bits all lie at or above `PL = 16` (X5). -/
theorem no_active_above_pl (x0 sp : Addr) (p0 : ScalableBits) (e : Nat) :
    ¬ ActiveIn (demo x0 sp p0).cfg 0xFFFF0000 e := by
  rintro ⟨h1, h2⟩
  have hvl : (demo x0 sp p0).cfg.vl = 128 := rfl
  have h3 : e < 16 := by rwa [hvl] at h1
  interval_cases e <;> simp [Nat.testBit] at h2

/-- X5. -/
theorem witness_NoActiveElementOnlyAdvancesPc :
    Enabled (demo 0x2000 0 0xFFFF0000).cfg ∧ (demo 0x2000 0 0xFFFF0000).pAt 0 = some 0xFFFF0000 ∧
    (∀ e, ¬ ActiveIn (demo 0x2000 0 0xFFFF0000).cfg 0xFFFF0000 e) ∧
    (demo 0x2000 0 0xFFFF0000).xAt 30 = some 0 ∧ (demo 0x2000 0 0xFFFF0000).zAt 31 = some (patternZ 31) ∧
    (demo 0x2000 0 0xFFFF0000).zAt ((31 + 1) % 32) = some (patternZ 0) :=
  ⟨⟨.inl rfl, rfl⟩, by decide, no_active_above_pl _ _ _, by decide, by decide, by decide⟩

/-- F4a and F4b: `sp = 0x7FF8` with nothing active; the draw as an argument decides. -/
theorem witness_NoActiveElementDrawDecidesTheSpCheck :
    Enabled (demo 0 0x7FF8 0xFFFF0000).cfg ∧ (demo 0 0x7FF8 0xFFFF0000).pAt 0 = some 0xFFFF0000 ∧
    (∀ e, ¬ ActiveIn (demo 0 0x7FF8 0xFFFF0000).cfg 0xFFFF0000 e) ∧ (demo 0 0x7FF8 0xFFFF0000).sp = some 0x7FF8 ∧
    (demo 0 0x7FF8 0xFFFF0000).zAt 0 = some (patternZ 0) ∧
    (demo 0 0x7FF8 0xFFFF0000).zAt ((0 + 1) % 32) = some (patternZ 1) ∧
    stopOf (Result.outcome (st2b true 0 0 .sp 0 (demo 0 0x7FF8 0xFFFF0000))) = some (.fault .spAlignmentFault) ∧
    stopOf (Result.outcome (st2b false 0 0 .sp 0 (demo 0 0x7FF8 0xFFFF0000))) = none :=
  ⟨⟨.inl rfl, rfl⟩, by decide, no_active_above_pl _ _ _, by decide, by decide, by decide, by decide, by decide⟩

/-- X1: an instruction that completes. It meets the hypothesis of every statement about a next state. -/
theorem witness_completion :
    ∃ t, exec (.st2b 0 0 (.x 0) 0) (demo 0x2000 0x7FF0 0xFFFF) = .next t ∧ t.mem.read 0x201F = 0x1F := by
  obtain ⟨t, h, hb⟩ := exists_next (o := exec (.st2b 0 0 (.x 0) 0) (demo 0x2000 0x7FF0 0xFFFF))
    (f := fun t => t.mem.read 0x201F == 0x1F) (by decide)
  exact ⟨t, h, by simpa using hb⟩

theorem witness_CompletionKeepsRegistersAndConfiguration :
    ∃ t, exec (.st2b 0 0 (.x 0) 0) (demo 0x2000 0x7FF0 0xFFFF) = .next t :=
  let ⟨t, h, _⟩ := witness_completion
  ⟨t, h⟩

/-- `0x1FFF` is outside the active structures of X1. -/
theorem witness_CompletionKeepsBytesOutsideActiveStructures :
    (∃ t, exec (.st2b 0 0 (.x 0) 0) (demo 0x2000 0x7FF0 0xFFFF) = .next t) ∧
    (demo 0x2000 0x7FF0 0xFFFF).pAt 0 = some 0xFFFF ∧ (demo 0x2000 0x7FF0 0xFFFF).baseAt (.x 0) = some 0x2000 ∧
    ∀ e r, ActiveIn (demo 0x2000 0x7FF0 0xFFFF).cfg 0xFFFF e → r < 2 →
      (0x1FFF : Addr) ≠ storeAddress (demo 0x2000 0x7FF0 0xFFFF).cfg (.x 0) 0x2000 0 e r := by
  refine ⟨witness_CompletionKeepsRegistersAndConfiguration, by decide, by decide, ?_⟩
  rintro e r ⟨he, -⟩ hr
  have he' : e < 16 := he
  interval_cases e <;> interval_cases r <;> decide

/-- AD11, the wrapping row, at its first byte and its last. -/
theorem witness_StoreAddressesAreScaledAndWrap :
    resetConfig.vl % 8 = 0 ∧ storeAddress resetConfig (.x 0) 0x10 (-1) 0 0 = 0xFFFFFFFFFFFFFFF0 ∧
    storeAddress resetConfig (.x 0) 0x10 (-1) 15 1 = 0xF := by decide

theorem witness_StoreAddressesAreDistinct :
    resetConfig.vl / 4 ≤ 2 ^ 64 ∧ 15 < resetConfig.vl / 8 ∧ 1 < 2 ∧
    storeAddress resetConfig .sp 0x10 (-1) 15 1 = storeAddress resetConfig .sp 0x10 (-1) 15 1 := by decide

/-- The descriptor of a base `sp`, and a table that refuses only another descriptor (tag-checked). -/
theorem witness_EveryStoreCarriesTheDescriptor :
    (∃ plan, planSt2b true 31 0 .sp 0 (demo 0 0x7FF0 3) = .ok plan ∧ plan.desc = ⟨.store, false, true, true, false⟩) ∧
    (∀ a, ({ resetConfig with memRefused := refuseFrom3000 (.x 0) } : Config).memAdmit a ⟨.store, false, true, true, false⟩
      = resetConfig.memAdmit a ⟨.store, false, true, true, false⟩) := by
  refine ⟨⟨_, planSt2b_of_valued (b := 0x7FF0) (pv := 3) (v0 := patternZ 31) (v1 := patternZ 0) ⟨.inl rfl, rfl⟩
    (by decide) (by decide) (by decide) (by decide) (fun _ _ => by decide), rfl⟩, fun a => ?_⟩
  simp [Config.memAdmit, refuseFrom3000, RefusedRange.refuses, descSt2b, createAccDescSVE, tagChecked, resetConfig]

theorem witness_ByteStoresAreTwiceTheActiveElements :
    (demo 0 0x7FF0 3).pAt 0 = some 3 ∧ ∃ plan, planSt2b true 31 0 .sp 0 (demo 0 0x7FF0 3) = .ok plan :=
  ⟨by decide, let ⟨plan, h, _⟩ := witness_EveryStoreCarriesTheDescriptor.1
    ⟨plan, h⟩⟩

/-- Any order: here the written one. -/
theorem witness_StoreOrderDoesNotMatter :
    ∃ plan m, planSt2b true 31 0 .sp 0 (demo 0 0x7FF0 3) = .ok plan ∧ (demo 0 0x7FF0 3).cfg.vl / 4 ≤ 2 ^ 64 ∧
      (demo 0 0x7FF0 3).mem.wf = true ∧ plan.stores.Perm plan.stores ∧
      storeAll (demo 0 0x7FF0 3).cfg plan.desc plan.stores (demo 0 0x7FF0 3).mem = .ok m := by
  obtain ⟨plan, h, -⟩ := witness_EveryStoreCarriesTheDescriptor.1
  exact ⟨plan, _, h, by decide, rfl, .refl _, storeAll_eq_ok.2 ⟨fun q _ => ⟨rfl, rfl⟩, rfl⟩⟩

theorem witness_St2bIsIdempotentOnMemory :
    (demo 0x2000 0x7FF0 0xFFFF).mem.wf = true ∧
    ∃ t, exec (.st2b 0 0 (.x 0) 0) (demo 0x2000 0x7FF0 0xFFFF) = .next t :=
  ⟨rfl, witness_CompletionKeepsRegistersAndConfiguration⟩

/-- F1 and F10, and a state with one feature. -/
theorem witness_UndefinedExactlyWithoutBothFeatures :
    decodeWord 0xE430E000 = .ok (.st2b 0 0 (.x 0) 0) ∧
    stopOf (exec (.st2b 0 0 (.x 0) 0) { demo 0x2000 0 0xFFFF with
      cfg := { resetConfig with featSve := false, sveAccess := .trap } }) = some (.fault .undefined) ∧
    stopOf (exec (.st2b 0 0 (.x 0) 0) (demo 0x2000 0 0xFFFF)) = none := by decide

/-- F2. -/
theorem witness_SveAccessTrapExactlyWhenTrapped :
    (({ resetConfig with sveAccess := .trap } : Config).featSve = true) ∧
    stopOf (exec (.st2b 0 0 (.x 0) 0) { demo 0x2000 0 0xFFFF with cfg := { resetConfig with sveAccess := .trap } })
      = some (.fault .sveAccessTrap) := by decide

/-- F3. -/
theorem witness_MisalignedSpWithActiveElementFaults :
    Enabled (demo 0 0x7FF8 1).cfg ∧ (demo 0 0x7FF8 1).pAt 0 = some 1 ∧ ActiveIn (demo 0 0x7FF8 1).cfg 1 0 ∧
    (demo 0 0x7FF8 1).sp = some 0x7FF8 ∧ (demo 0 0x7FF8 1).cfg.spAlignCheck = true ∧ (0x7FF8 : Addr).toNat % 16 ≠ 0 :=
  ⟨⟨.inl rfl, rfl⟩, by decide, ⟨by decide, by decide⟩, by decide, by decide, by decide⟩

theorem witness_AlignmentFaultOnlyForMisalignedSp :
    exec (.st2b 0 0 .sp 0) (demo 0 0x7FF8 1) = .fault .spAlignmentFault :=
  eq_of_stopOf (e := .fault .spAlignmentFault) (by decide)

/-- F8 at its deciding byte (element 8, `r = 0`) for the data abort, and F14 (element 8, `r = 0`) for the refusal. -/
theorem witness_FirstUnclearByteDecidesTheStop :
    ((demoRefused 0x0F0F).pAt 0 = some 0x0F0F ∧ (demoRefused 0x0F0F).baseAt (.x 0) = some 0x2FF8 ∧
      ActiveIn (demoRefused 0x0F0F).cfg 0x0F0F 8 ∧
      (∀ e' r', ActiveIn (demoRefused 0x0F0F).cfg 0x0F0F e' → r' < 2 → 2 * e' + r' < 2 * 8 + 0 →
        Clear (demoRefused 0x0F0F).cfg (descSt2b (.x 0)) (storeAddress (demoRefused 0x0F0F).cfg (.x 0) 0x2FF8 0 e' r')) ∧
      (demoRefused 0x0F0F).cfg.programText.covers
        (storeAddress (demoRefused 0x0F0F).cfg (.x 0) 0x2FF8 0 8 0) = false ∧
      (demoRefused 0x0F0F).cfg.memAdmit (storeAddress (demoRefused 0x0F0F).cfg (.x 0) 0x2FF8 0 8 0) (descSt2b (.x 0))
        = .fault) ∧
    stopOf (exec (.st2b 0 0 (.x 0) 0) ((demo 0x3FFFF0 0 0xFFFF).withFetchWord 32 0xE430E000))
      = some (.refuse (.storeToProgramText 0x400000)) := by
  refine ⟨⟨by decide, by decide, ⟨by decide, by decide⟩, ?_, by decide, by decide⟩, by decide⟩
  rintro e' r' ⟨h1, h2⟩ hr hlt
  have h3 : e' < 8 := by omega
  interval_cases e' <;> interval_cases r' <;>
    first | exact absurd h2 (by decide) | exact ⟨by decide, by decide⟩

/-- F13 and its fellows: each register read without a value, in order. -/
theorem witness_ChecksAndReadsComeInTheSpecsOrder :
    let none' := fun (s : State) => { s with z := s.z.set 31 none }
    stopOf (exec (.st2b 0 0 (.x 0) 0) { demo 0 0 1 with p := State.reset.p.set 0 none, x := State.reset.x.set 0 none })
      = some (.fault (.unwrittenRegister (.p 0))) ∧
    stopOf (exec (.st2b 31 0 (.x 0) 0) (none' { demo 0 0 1 with x := State.reset.x.set 0 none }))
      = some (.fault (.unwrittenRegister (.x 0))) ∧
    stopOf (exec (.st2b 31 0 .sp 0) (none' { demo 0 0 1 with sp := none })) = some (.fault (.unwrittenRegister .sp)) ∧
    stopOf (exec (.st2b 31 0 (.x 0) 0) (none' (demo 0 0 1))) = some (.fault (.unwrittenRegister (.z 31))) ∧
    stopOf (exec (.st2b 30 0 (.x 0) 0) (none' (demo 0 0 1))) = some (.fault (.unwrittenRegister (.z 31))) := by decide

/-- F6. -/
theorem witness_InstructionStopsOnlyForItsOwnReasons :
    exec (.st2b 0 0 (.x 0) 0) (demoRefused 0xFFFF) = .fault (.dataAbort 0x3000) :=
  eq_of_stopOf (e := .fault (.dataAbort 0x3000)) (by decide)

theorem witness_ValuedRegistersNeverFaultAtARead :
    (∀ n, n ≤ 30 → (State.reset.xAt n).isSome = true) ∧ State.reset.sp.isSome = true ∧
    (∀ n, n ≤ 31 → (State.reset.zAt n).isSome = true) ∧ (∀ n, n ≤ 7 → (State.reset.pAt n).isSome = true) ∧
    (∃ t, exec (.st2b 31 7 (.x 30) 7) State.reset = .next t) ∧ (Instr.st2b 31 7 (.x 30) 7).wf = true := by
  refine ⟨by decide, rfl, by decide, by decide, ?_, by decide⟩
  obtain ⟨t, h, -⟩ := exists_next (o := exec (.st2b 31 7 (.x 30) 7) State.reset) (f := fun _ => true) (by decide)
  exact ⟨t, h⟩

theorem witness_CompletionNeedsFeatureEnableValuesClearBytesAndAlignment :
    (∃ t, exec (.st2b 0 0 .sp 0) (demo 0 0x7FF0 3) = .next t) ∧ ActiveIn (demo 0 0x7FF0 3).cfg 3 1 := by
  refine ⟨?_, by decide, by decide⟩
  obtain ⟨t, h, -⟩ := exists_next (o := exec (.st2b 0 0 .sp 0) (demo 0 0x7FF0 3)) (f := fun _ => true) (by decide)
  exact ⟨t, h⟩

/-- The table of F7 agrees with the empty one on the active bytes (elements 0 to 3), and element 4 is inactive. -/
theorem witness_InactiveStructuresAreNeverAccessed :
    (demo 0x2FF8 0x7FF0 0xF).pAt 0 = some 0xF ∧ (demo 0x2FF8 0x7FF0 0xF).baseAt (.x 0) = some 0x2FF8 ∧
    (∀ e r, ActiveIn (demo 0x2FF8 0x7FF0 0xF).cfg 0xF e → r < 2 →
      (({ resetConfig with memRefused := refuseFrom3000 (.x 0) } : Config).memAdmit
          (storeAddress (demo 0x2FF8 0x7FF0 0xF).cfg (.x 0) 0x2FF8 0 e r) (descSt2b (.x 0))
        = (demo 0x2FF8 0x7FF0 0xF).cfg.memAdmit
          (storeAddress (demo 0x2FF8 0x7FF0 0xF).cfg (.x 0) 0x2FF8 0 e r) (descSt2b (.x 0)))) ∧
    (∃ t, exec (.st2b 0 0 (.x 0) 0) (demo 0x2FF8 0x7FF0 0xF) = .next t) ∧ 4 < (demo 0x2FF8 0x7FF0 0xF).cfg.vl / 8 ∧
    ¬ ActiveIn (demo 0x2FF8 0x7FF0 0xF).cfg 0xF 4 := by
  refine ⟨by decide, by decide, ?_, ?_, by decide, fun h => absurd h.2 (by decide)⟩
  · rintro e r ⟨he, h2⟩ hr
    have he' : e < 16 := he
    interval_cases e <;> interval_cases r <;> first | exact absurd h2 (by decide) | decide
  · obtain ⟨t, h, -⟩ := exists_next (o := exec (.st2b 0 0 (.x 0) 0) (demo 0x2FF8 0x7FF0 0xF)) (f := fun _ => true)
      (by decide)
    exact ⟨t, h⟩

/-- Every other register without a value: the operands' are the same. -/
theorem witness_OnlyOperandRegistersAreRead :
    ({ demo 0x2000 0x7FF0 1 with sp := none, x := (Vector.replicate 31 none).set 0 (some 0x2000) } : State).baseAt (.x 0)
      = (demo 0x2000 0x7FF0 1).baseAt (.x 0) := by decide

theorem witness_DataMemoryIsNeverRead :
    (demo 0x2000 0x7FF0 0xFFFF).mem.wf = true ∧ Memory.wf [(0x1FFF, 0xAA), (0x2000, 0xBB)] = true ∧
    ∃ t, exec (.st2b 0 0 (.x 0) 0) (demo 0x2000 0x7FF0 0xFFFF) = .next t :=
  ⟨rfl, by decide, witness_CompletionKeepsRegistersAndConfiguration⟩

theorem witness_StoredValuesNeverDecideTheOutcome :
    ∀ n : Nat, n ≤ 31 → (({ demo 0x2000 0x7FF0 0xFFFF with z := State.reset.z } : State).zAt n).isSome
      = ((demo 0x2000 0x7FF0 0xFFFF).zAt n).isSome := by decide

/-- X9: only `FEAT_SME`. -/
theorem witness_EitherFeatureGivesTheSameOutcome :
    (demo 0x2000 0x7FF0 0xFFFF).cfg.featSve = true ∧
    nextHas (fun t => t.mem.read 0x2001 == 0x10) (exec (.st2b 0 0 (.x 0) 0) { demo 0x2000 0x7FF0 0xFFFF with
      cfg := { resetConfig with featSve := false, featSme := true } }) = true := by decide

/-- A placed word is fetched: nothing recorded, `pc` aligned, the word there, and it decodes. -/
theorem witness_StepRunsTheDecodedInstruction :
    (State.reset.withFetchWord 32 0xE438FFFF).recorded = none ∧
    (State.reset.withFetchWord 32 0xE438FFFF).pc.toNat % 4 = 0 ∧
    (State.reset.withFetchWord 32 0xE438FFFF).cfg.programText.wordAt
      (State.reset.withFetchWord 32 0xE438FFFF).pc.toNat = some 0xE438FFFF ∧
    decodeWord 0xE438FFFF = .ok (.st2b 31 7 .sp (-8)) := by decide

/-- F11. -/
theorem witness_MisalignedPcFaults :
    State.reset.recorded = none ∧
    stopOf (step { State.reset with pc := 0x400002 }) = some (.fault .pcAlignment) := by decide

/-- F12. -/
theorem witness_UnmatchedWordIsRefused :
    (State.reset.withFetchWord 32 0xE420E000).cfg.programText.wordAt 0 = some 0xE420E000 ∧
    stopOf (step (State.reset.withFetchWord 32 0xE420E000)) = some (.refuse (.notInSpec 0xE420E000)) := by decide

theorem witness_FinalStatesHaveNoStep :
    State.reset.recorded = none ∧ stopOf (step State.reset) = some (.refuse .endOfRun) := by decide

theorem witness_RecordedStopIsPermanent :
    ({ State.reset with recorded := some (.fault .undefined) } : State).recorded = some (.fault .undefined) := rfl

/-- F6 as a step, with the instruction that was fetched. -/
theorem witness_FaultKeepsRegistersPcAndOtherBytes :
    ((demoRefused 0xFFFF).withFetchWord 32 0xE430E000).recorded = none ∧
    step ((demoRefused 0xFFFF).withFetchWord 32 0xE430E000) = .fault (.dataAbort 0x3000) ∧
    fetchInstr ((demoRefused 0xFFFF).withFetchWord 32 0xE430E000) = .ok (.st2b 0 0 (.x 0) 0) ∧
    ((demoRefused 0xFFFF).withFetchWord 32 0xE430E000).pAt 0 = some 0xFFFF ∧
    ((demoRefused 0xFFFF).withFetchWord 32 0xE430E000).baseAt (.x 0) = some 0x2FF8 :=
  ⟨by decide, eq_of_stopOf (e := .fault (.dataAbort 0x3000)) (by decide), by decide, by decide, by decide⟩

theorem witness_UnspecifiedBytesAreNeverSeen :
    ∃ s k, step s = .fault k :=
  ⟨_, _, witness_FaultKeepsRegistersPcAndOtherBytes.2.1⟩

theorem witness_StepKeepsTheInvariant :
    ((demo 0x2000 0x7FF0 0xFFFF).withFetchWord 32 0xE430E000).inv = true ∧
    ∃ t, step ((demo 0x2000 0x7FF0 0xFFFF).withFetchWord 32 0xE430E000) = .next t := by
  refine ⟨by decide, ?_⟩
  obtain ⟨t, h, -⟩ := exists_next (o := step ((demo 0x2000 0x7FF0 0xFFFF).withFetchWord 32 0xE430E000))
    (f := fun _ => true) (by decide)
  exact ⟨t, h⟩

theorem witness_ResetAndLaunchMeetTheInvariant :
    resetConfig.wf = true ∧ (demo 0x2000 0x7FF0 0xFFFF).image.wf resetConfig = true := by decide

theorem witness_RunKeepsRegistersAndAdvancesPcByFour :
    ∃ t, Reaches 1 ((demo 0x2000 0x7FF0 0xFFFF).withFetchWord 32 0xE430E000) t := by
  obtain ⟨-, t, h⟩ := witness_StepKeepsTheInvariant
  exact ⟨t, by simp only [Reaches, Host.Core.run, Sys2Proof.core, h]⟩

/-- P2: its two words loaded at `0x400000`, a state whose `ProgramText` is that block at `pc`, and the block written
out. -/
theorem witness_BlockRunEndsWithinItsLength :
    let s : State := { demo 0x2000 0x7FF0 0xFFFF with
      cfg := { resetConfig with programText := ProgramText.block 0x400000 [0xE430E000, 0xE431E002] } }
    s.pc.toNat % 4 = 0 ∧ [0xE430E000#32, 0xE431E002#32].length < 2 ^ 62 ∧
    s.cfg.programText = ProgramText.block s.pc [0xE430E000, 0xE431E002] ∧
    ProgramText.block 0x400000 [0xE430E000, 0xE431E002] = [(0x400000, 0xE430E000), (0x400004, 0xE431E002)] := by decide

/-- P2's bytes. -/
theorem witness_LoadedBytesAreFetchedWordForWord :
    textOfBytes 0x400000 [0x00, 0xE0, 0x30, 0xE4, 0x02, 0xE0, 0x31, 0xE4]
      = [(0x400000, 0xE430E000), (0x400004, 0xE431E002)] := by decide

theorem witness_PlacedWordIsWhatTheNextStepRuns :
    (Instr.st2b 31 7 .sp (-8)).wf = true ∧ State.reset.pc.toNat % 4 = 0 ∧ State.reset.recorded = none := by decide

end Sys2Proof.Tests
end

section
/-! SUPPORT. Scope (spec/00_scope.md R5, R6): the invariant of a run, and the table that holds `MemAdmit`. -/

/-! ## The invariant (R5, R17, R38) -/

namespace Sys2Proof.Machine

/-- The three parts of the invariant. -/
theorem State.inv_iff {s : State} :
    s.inv = true ↔ s.cfg.wf = true ∧ pcMisaligned s.pc = false ∧ s.mem.wf = true := by
  simp [State.inv, and_assoc]

/-- Completion keeps the invariant whenever the memory it leaves is canonical: the configuration stays (D6), and 4 more
than an aligned `pc` is aligned, across a wrap too (R17). -/
theorem State.inv_completed {s : State} (hs : s.inv = true) {m : Memory} (hm : m.wf = true) (d : Nat) :
    (s.completed m d).inv = true := by
  obtain ⟨hcfg, hpc, -⟩ := State.inv_iff.1 hs
  exact State.inv_iff.2 ⟨hcfg, pcMisaligned_next hpc, hm⟩

/-- A completed step keeps the invariant: it is a completion over byte writes, and those keep the canonical form. -/
theorem State.inv_of_step {s t : State} (hs : s.inv = true) (h : step s = .next t) : t.inv = true := by
  obtain ⟨writes, d, rfl⟩ := step_next_completed h
  obtain ⟨-, -, hmem⟩ := State.inv_iff.1 hs
  exact State.inv_completed hs (Memory.wf_writeAll writes hmem) d

/-- Settles O43, from `State.inv_of_step`. -/
theorem stepKeepsTheInvariant : Obligations.StepKeepsTheInvariant :=
  fun _ _ => State.inv_of_step

end Sys2Proof.Machine

/-! ## The table that holds `MemAdmit` (R6, D11; log 7) -/

namespace Sys2Proof

/-- An answer of `MemAdmit` is settled by whether it is `fault`. -/
theorem Admit.eq_of_fault_iff {x y : Admit} (h : x = .fault ↔ y = .fault) : x = y := by
  cases x <;> cases y <;> simp_all

/-- `MemAdmit` faults exactly on what some entry of its table refuses. -/
theorem Config.memAdmit_eq_fault_iff {cfg : Config} {a : Addr} {d : AccDesc} :
    cfg.memAdmit a d = .fault ↔ ∃ r ∈ cfg.memRefused, r.refuses a d = true := by
  simp [Config.memAdmit]

/-- What an entry of the table refuses. -/
theorem RefusedRange.refuses_iff {r : RefusedRange} {a : Addr} {d : AccDesc} :
    r.refuses a d = true ↔ r.first.toNat ≤ a.toNat ∧ a.toNat ≤ r.last.toNat ∧ r.desc = d := by
  simp [RefusedRange.refuses, and_assoc]

/-- The entry that refuses one access: one address under one descriptor. -/
def RefusedRange.single (p : Addr × AccDesc) : RefusedRange :=
  { first := p.1, last := p.1, desc := p.2 }

theorem RefusedRange.single_refuses_iff {p : Addr × AccDesc} {a : Addr} {d : AccDesc} :
    (RefusedRange.single p).refuses a d = true ↔ p = (a, d) := by
  rw [RefusedRange.refuses_iff, RefusedRange.single, ← and_assoc, ← Nat.le_antisymm_iff, BitVec.toNat_inj,
    Prod.ext_iff]

/-- Every word of a width. -/
def everyWord (w : Nat) : List (BitVec w) :=
  (List.range (2 ^ w)).map (BitVec.ofNat w)

theorem mem_everyWord {w : Nat} (a : BitVec w) : a ∈ everyWord w :=
  List.mem_map.2 ⟨a.toNat, List.mem_range.2 a.isLt, by simp⟩

/-- Every access descriptor: one operation and four booleans (R13, R40). -/
def everyDesc : List AccDesc := do
  let nontemporal ← [false, true]
  let contiguous ← [false, true]
  let predicated ← [false, true]
  let tagchecked ← [false, true]
  [{ op := .store, nontemporal, contiguous, predicated, tagchecked }]

theorem mem_everyDesc (d : AccDesc) : d ∈ everyDesc := by
  obtain ⟨⟨⟩, nontemporal, contiguous, predicated, tagchecked⟩ := d
  revert nontemporal contiguous predicated tagchecked
  decide

/-- Every access: an address and a descriptor. -/
def everyAccess : List (Addr × AccDesc) :=
  everyWord 64 ×ˢ everyDesc

theorem mem_everyAccess (p : Addr × AccDesc) : p ∈ everyAccess :=
  List.pair_mem_product.2 ⟨mem_everyWord p.1, mem_everyDesc p.2⟩

/-- The table of an admission function: an entry for each single access it refuses. -/
def refusedTable (f : Addr → AccDesc → Admit) : List RefusedRange :=
  (everyAccess.filter fun p => f p.1 p.2 = .fault).map RefusedRange.single

/-- An access is refused by an entry of the table exactly when the function refuses it. -/
theorem refusedTable_refuses_iff {f : Addr → AccDesc → Admit} {a : Addr} {d : AccDesc} :
    (∃ r ∈ refusedTable f, r.refuses a d = true) ↔ f a d = .fault := by
  simp [refusedTable, RefusedRange.single_refuses_iff, mem_everyAccess]

/-- In any configuration, a function's table answers as the function. -/
theorem Config.memAdmit_refusedTable (f : Addr → AccDesc → Admit) (cfg : Config) (a : Addr) (d : AccDesc) :
    ({ cfg with memRefused := refusedTable f } : Config).memAdmit a d = f a d := by
  apply Admit.eq_of_fault_iff
  rw [Config.memAdmit_eq_fault_iff, refusedTable_refuses_iff]

/-- Settles O35: the table of `f` is `refusedTable f`. -/
theorem everyAdmissionFunctionIsATable : Obligations.EveryAdmissionFunctionIsATable :=
  fun f => ⟨refusedTable f, Config.memAdmit_refusedTable f⟩

end Sys2Proof
end

section
/-! SUPPORT. State (spec/10_state.md R15 to R30): what completion keeps, which registers and bits an instruction reads,
and that it reads no data memory. -/

namespace Sys2Proof.Machine

/-! ## What completion keeps (R27, R73) -/

/-- Completion changes only memory, the draw counter and `pc`. -/
theorem State.sameRegisters_completed (s : State) (m : Memory) (d : Nat) : SameRegisters s (s.completed m d) :=
  ⟨rfl, rfl, rfl, rfl, rfl, rfl⟩

theorem sameRegisters_of_exec {i : Instr} {s t : State} (h : exec i s = .next t) : SameRegisters s t := by
  obtain ⟨writes, d, rfl⟩ := exec_eq_next h
  exact s.sameRegisters_completed _ d

theorem pc_of_exec {i : Instr} {s t : State} (h : exec i s = .next t) : t.pc = s.pc + 4 := by
  obtain ⟨writes, d, rfl⟩ := exec_eq_next h
  exact s.completed_pc _ d

/-- Settles O11: what completes is a completion (`exec_eq_next`). -/
theorem completionKeepsRegistersAndConfiguration : Obligations.CompletionKeepsRegistersAndConfiguration :=
  fun _ _ _ h => ⟨sameRegisters_of_exec h, pc_of_exec h⟩

/-! ## Registers that all hold values (R29, D21; log 11) -/

/-- Every register holds a value. -/
structure State.Valued (s : State) : Prop where
  x : ∀ n, n ≤ 30 → (s.xAt n).isSome = true
  sp : s.sp.isSome = true
  z : ∀ n, n ≤ 31 → (s.zAt n).isSome = true
  p : ∀ n, n ≤ 7 → (s.pAt n).isSome = true

/-- Equal registers hold values alike. -/
theorem State.Valued.of_sameRegisters {s t : State} (hs : s.Valued) (h : SameRegisters s t) : t.Valued := by
  obtain ⟨-, hx, hsp, hz, hp, -⟩ := h
  constructor
  · simpa only [State.xAt, hx] using hs.x
  · simpa only [hsp] using hs.sp
  · simpa only [State.zAt, hz] using hs.z
  · simpa only [State.pAt, hp] using hs.p

theorem State.Valued.baseAt_ne_none {s : State} (hs : s.Valued) {base : BaseReg} (h : base.wf = true) :
    s.baseAt base ≠ none := by
  apply Option.isSome_iff_ne_none.1
  cases base with
  | x n => exact hs.x n (of_decide_eq_true h)
  | sp => exact hs.sp

theorem State.Valued.zAt_ne_none {s : State} (hs : s.Valued) {n : Nat} (h : n ≤ 31) : s.zAt n ≠ none :=
  Option.isSome_iff_ne_none.1 (hs.z n h)

theorem State.Valued.pAt_ne_none {s : State} (hs : s.Valued) {n : Nat} (h : n ≤ 7) : s.pAt n ≠ none :=
  Option.isSome_iff_ne_none.1 (hs.p n h)

/-- The second vector register is one of `Z0` to `Z31` (R54). -/
theorem secondVector_le (zt : Nat) : secondVector zt ≤ 31 :=
  Nat.le_of_lt_succ (Nat.mod_lt _ (by decide))

theorem st2b_wf_iff {zt pg : Nat} {base : BaseReg} {off : Int} :
    (Instr.st2b zt pg base off).wf = true ↔ zt ≤ 31 ∧ pg ≤ 7 ∧ base.wf = true ∧ -8 ≤ off ∧ off ≤ 7 := by
  simp [Instr.wf, and_assoc]

/-- A byte store never stops for a register (R87 item 8). -/
theorem stopAt_ne_unwrittenRegister (cfg : Config) (a : Addr) (r : RegName) :
    stopAt cfg a ≠ .fault (.unwrittenRegister r) := by
  unfold stopAt
  split_ifs <;> simp

/-- Only an operand without a value stops the steps before the store loop with `UnwrittenRegister` (R29). -/
theorem planSt2b_eq_unwrittenRegister {draw : Bool} {zt pg : Nat} {base : BaseReg} {off : Int} {s : State} {r : RegName}
    (h : planSt2b draw zt pg base off s = .error (.fault (.unwrittenRegister r))) :
    s.pAt pg = none ∨ s.baseAt base = none ∨ s.zAt zt = none ∨ s.zAt (secondVector zt) = none := by
  rcases planSt2b_eq_error h with ⟨⟨⟩, -⟩ | ⟨⟨⟩, -⟩ | ⟨⟨⟩, -⟩ | ⟨-, hp⟩ | ⟨-, hb⟩ | ⟨-, h0⟩ | ⟨-, h1⟩
  · exact .inl hp
  · exact .inr (.inl hb)
  · exact .inr (.inr (.inl h0))
  · exact .inr (.inr (.inr h1))

/-- A well-formed instruction names only registers that exist, so it meets none without a value. -/
theorem State.Valued.exec_ne_unwrittenRegister {s : State} (hs : s.Valued) {i : Instr} (hi : i.wf = true)
    (r : RegName) : exec i s ≠ .fault (.unwrittenRegister r) := by
  cases i with
  | st2b zt pg base off =>
    obtain ⟨hzt, hpg, hbase, -, -⟩ := st2b_wf_iff.1 hi
    intro h
    rcases execSt2b_eq_stop (e := .fault (.unwrittenRegister r)).1 h with hplan | ⟨_, -, _, _, _, _, -, -, -, hstop⟩
    · rcases planSt2b_eq_unwrittenRegister hplan with hp | hb | h0 | h1
      · exact hs.pAt_ne_none hpg hp
      · exact hs.baseAt_ne_none hbase hb
      · exact hs.zAt_ne_none hzt h0
      · exact hs.zAt_ne_none (secondVector_le zt) h1
    · exact stopAt_ne_unwrittenRegister _ _ r hstop.symm

/-- Settles O27: the state an instruction leaves has the same registers, so that all still hold values. -/
theorem valuedRegistersNeverFaultAtARead : Obligations.ValuedRegistersNeverFaultAtARead := by
  intro i s r hi hx hsp hz hp
  have hs : s.Valued := ⟨hx, hsp, hz, hp⟩
  refine ⟨hs.exec_ne_unwrittenRegister hi r, fun t ht j hj => ?_⟩
  exact (hs.of_sameRegisters (sameRegisters_of_exec ht)).exec_ne_unwrittenRegister hj r

/-! ## Changes of the state that an execution carries through

A change that leaves the plan as it is, and that the store loop and completion do not see, may be made before the
execution or after it. -/

/-- The change `f` at `s` is not seen by the draw, the store loop and completion. -/
structure CarriedThrough (f : State → State) (s : State) : Prop where
  draws : (f s).draws = s.draws
  mem : (f s).mem = s.mem
  stores : ∀ desc l m, storeAll (f s).cfg desc l m = storeAll s.cfg desc l m
  completed : ∀ m d, (f s).completed m d = f (s.completed m d)

theorem Result.outcome_map (f : State → State) (r : Result State) :
    Result.outcome (r.map f) = mapNext f r.outcome := by
  rcases r with (k | r) | s <;> rfl

theorem st2b_carriedThrough {f : State → State} {s : State} (hf : CarriedThrough f s) {draw : Bool} {zt pg : Nat}
    {base : BaseReg} {off : Int} (hplan : planSt2b draw zt pg base off (f s) = planSt2b draw zt pg base off s) :
    st2b draw zt pg base off (f s) = (st2b draw zt pg base off s).map f := by
  unfold st2b
  rw [hplan, hf.mem]
  cases planSt2b draw zt pg base off s with
  | error e => rfl
  | ok plan =>
    simp only [Result.ok_bind, hf.stores, hf.completed]
    cases storeAll s.cfg plan.desc plan.stores s.mem <;> rfl

/-- If `f` leaves the plan of ST2B as it is, executing and then changing by `f` is changing by `f` and then executing. -/
theorem exec_carriedThrough {f : State → State} {s : State} (hf : CarriedThrough f s) {zt pg : Nat} {base : BaseReg}
    {off : Int} (hplan : ∀ draw, planSt2b draw zt pg base off (f s) = planSt2b draw zt pg base off s) :
    exec (.st2b zt pg base off) (f s) = mapNext f (exec (.st2b zt pg base off) s) :=
  calc
    Result.outcome (st2b (Config.checkSpNoneActive (f s).draws) zt pg base off (f s))
      = Result.outcome ((st2b (Config.checkSpNoneActive s.draws) zt pg base off s).map f) := by
        rw [hf.draws, st2b_carriedThrough hf (hplan _)]
    _ = mapNext f (Result.outcome (st2b (Config.checkSpNoneActive s.draws) zt pg base off s)) :=
        Result.outcome_map f _

/-! ## Other registers (R15, R16, R20, R21, R27) -/

/-- The state with other register contents. -/
def State.withRegisters (s : State) (x : Vector (Option Addr) 31) (sp : Option Addr)
    (z : Vector (Option ScalableBits) 32) (p : Vector (Option ScalableBits) 8) : State :=
  { s with x := x, sp := sp, z := z, p := p }

section
variable {s : State} {x : Vector (Option Addr) 31} {sp : Option Addr} {z : Vector (Option ScalableBits) 32}
  {p : Vector (Option ScalableBits) 8}

/-- The alignment check reads no register but the base (R68). -/
theorem checkBaseAlignment_withRegisters {base : BaseReg}
    (h : readBase (s.withRegisters x sp z p) base = readBase s base) (made : Bool) :
    checkBaseAlignment base made (s.withRegisters x sp z p) = checkBaseAlignment base made s := by
  cases base with
  | x n => rfl
  | sp =>
    have hsp : readSP (s.withRegisters x sp z p) = readSP s := h
    unfold checkBaseAlignment checkSPAlignment
    rw [hsp]
    rfl

/-- The plan depends on the registers only through the four reads (R66, R69, R70). -/
theorem planSt2b_withRegisters {draw : Bool} {zt pg : Nat} {base : BaseReg} {off : Int}
    (hp : readP (s.withRegisters x sp z p) pg = readP s pg)
    (hb : readBase (s.withRegisters x sp z p) base = readBase s base)
    (h0 : readZ (s.withRegisters x sp z p) zt = readZ s zt)
    (h1 : readZ (s.withRegisters x sp z p) (secondVector zt) = readZ s (secondVector zt)) :
    planSt2b draw zt pg base off (s.withRegisters x sp z p) = planSt2b draw zt pg base off s := by
  unfold planSt2b
  simp only [checkBaseAlignment_withRegisters hb]
  rw [hp, hb, h0, h1]
  rfl

theorem readP_withRegisters {g : Nat} (h : (s.withRegisters x sp z p).pAt g = s.pAt g) :
    readP (s.withRegisters x sp z p) g = readP s g := by
  rw [readP_eq, readP_eq, h]
  rfl

theorem readZ_withRegisters {i : Nat} (h : (s.withRegisters x sp z p).zAt i = s.zAt i) :
    readZ (s.withRegisters x sp z p) i = readZ s i := by
  rw [readZ_eq, readZ_eq, h]
  rfl

theorem readBase_withRegisters {base : BaseReg} (h : (s.withRegisters x sp z p).baseAt base = s.baseAt base) :
    readBase (s.withRegisters x sp z p) base = readBase s base := by
  rw [readBase_eq, readBase_eq, h]

end

/-- Settles O30: with the operands' contents the same the four reads are the same, hence the plan; other registers are
carried through. -/
theorem onlyOperandRegistersAreRead : Obligations.OnlyOperandRegistersAreRead := by
  intro s zt pg base off x sp z p hp hb h0 h1
  have hcarried : CarriedThrough (fun t => t.withRegisters x sp z p) s :=
    ⟨rfl, rfl, fun _ _ _ => rfl, fun _ _ => rfl⟩
  exact exec_carriedThrough hcarried fun _ => planSt2b_withRegisters (readP_withRegisters hp)
    (readBase_withRegisters hb) (readZ_withRegisters h0) (readZ_withRegisters h1)

/-! ## Bits above the vector length (R22, R67, R77) -/

theorem State.zAt_truncated (s : State) (i : Nat) : s.truncated.zAt i = (s.zAt i).map (· % 2 ^ s.cfg.vl) := by
  simp only [State.zAt, State.truncated, Vector.getElem?_map]
  rcases s.z[i]? with _ | _ | c <;> rfl

theorem State.pAt_truncated (s : State) (g : Nat) : s.truncated.pAt g = (s.pAt g).map (· % 2 ^ s.cfg.pl) := by
  simp only [State.pAt, State.truncated, Vector.getElem?_map]
  rcases s.p[g]? with _ | _ | c <;> rfl

/-- The low `n` bits of a number are those of its remainder. -/
theorem ofNat_mod_two_pow (n c : Nat) : BitVec.ofNat n (c % 2 ^ n) = BitVec.ofNat n c :=
  BitVec.eq_of_toNat_eq (by simp)

/-- A vector read sees the low `VL` bits only (R20, R22). -/
theorem readZ_truncated (s : State) (i : Nat) : readZ s.truncated i = readZ s i := by
  rw [readZ_eq, readZ_eq, State.zAt_truncated]
  cases s.zAt i with
  | none => rfl
  | some c => exact congrArg Except.ok (ofNat_mod_two_pow _ c)

/-- A predicate read sees the low `PL` bits only (R21, R22). -/
theorem readP_truncated (s : State) (g : Nat) : readP s.truncated g = readP s g := by
  rw [readP_eq, readP_eq, State.pAt_truncated]
  cases s.pAt g with
  | none => rfl
  | some c => exact congrArg Except.ok (ofNat_mod_two_pow _ c)

/-- Settles O32: truncation is a change of registers (`State.withRegisters`) under which every read, seeing the low bits
only, is the same, hence the plan; and it is carried through. -/
theorem bitsAboveTheVectorLengthAreIgnored : Obligations.BitsAboveTheVectorLengthAreIgnored
  | .st2b zt pg base _, s => by
    have hcarried : CarriedThrough State.truncated s := ⟨rfl, rfl, fun _ _ _ => rfl, fun _ _ => rfl⟩
    have hbase : readBase s.truncated base = readBase s base := by cases base <;> rfl
    exact exec_carriedThrough hcarried fun _ => planSt2b_withRegisters (readP_truncated s pg) hbase
      (readZ_truncated s zt) (readZ_truncated s (secondVector zt))

/-! ## The two features (R23, R64) -/

/-- The state with other values of the two features. -/
def State.withFeatures (s : State) (sve sme : Bool) : State :=
  { s with cfg := { s.cfg with featSve := sve, featSme := sme } }

theorem featureTest_eq_ok {cfg : Config} (h : cfg.featSve = true ∨ cfg.featSme = true) : featureTest cfg = .ok () := by
  rw [featureTest_eq, if_pos h]

/-- Past the feature test nothing reads the features (R64). -/
theorem planSt2b_withFeatures {s : State} {sve sme : Bool} (h : s.cfg.featSve = true ∨ s.cfg.featSme = true)
    (h' : sve = true ∨ sme = true) {draw : Bool} {zt pg : Nat} {base : BaseReg} {off : Int} :
    planSt2b draw zt pg base off (s.withFeatures sve sme) = planSt2b draw zt pg base off s := by
  have hnew : featureTest (s.withFeatures sve sme).cfg = .ok () := featureTest_eq_ok h'
  unfold planSt2b
  rw [featureTest_eq_ok h, hnew]
  cases base <;> rfl

/-- The store loop reads `ProgramText` and `MemAdmit`, not the features (R48, R71). -/
theorem storeAll_withFeatures (s : State) (sve sme : Bool) (desc : AccDesc) (l : List (Addr × Byte)) (m : Memory) :
    storeAll (s.withFeatures sve sme).cfg desc l m = storeAll s.cfg desc l m := by
  induction l generalizing m with
  | nil => rfl
  | cons q rest ih =>
    rw [storeAll_cons, storeAll_cons, funext ih]
    rfl

/-- Settles O34: the feature test passes for both pairs of values, hence the plan is the same; the new values are carried
through. -/
theorem eitherFeatureGivesTheSameOutcome : Obligations.EitherFeatureGivesTheSameOutcome
  | .st2b _ _ _ _, s, sve, sme, h, h' =>
    have hcarried : CarriedThrough (fun t => { t with cfg := (s.withFeatures sve sme).cfg }) s :=
      ⟨rfl, rfl, storeAll_withFeatures s sve sme, fun _ _ => rfl⟩
    exec_carriedThrough hcarried fun _ => planSt2b_withFeatures h h'

/-! ## Data memory (R27, R31) -/

/-- After the same writes over two memories a byte is the same in both, or in each the one that was there before. -/
theorem Memory.read_writeAll_cases (l : List (Addr × Byte)) {m m' : Memory} (hm : m.wf = true) (hm' : m'.wf = true)
    (a : Addr) :
    (Memory.writeAll l m').read a = (Memory.writeAll l m).read a ∨
      ((Memory.writeAll l m).read a = m.read a ∧ (Memory.writeAll l m').read a = m'.read a) := by
  induction l generalizing m m' with
  | nil => exact .inr ⟨rfl, rfl⟩
  | cons q rest ih =>
    obtain ⟨k, b⟩ := q
    rcases ih (Memory.wf_write hm k b) (Memory.wf_write hm' k b) with hsame | ⟨hkeep, hkeep'⟩
    · exact .inl hsame
    · simp only [Memory.writeAll, hkeep, hkeep', Memory.read_write hm, Memory.read_write hm']
      by_cases ha : a = k <;> simp [ha]

/-- The steps before the store loop do not look at memory (R63 steps 1 to 6). -/
theorem planSt2b_withMemory (draw : Bool) (zt pg : Nat) (base : BaseReg) (off : Int) (s : State) (m : Memory) :
    planSt2b draw zt pg base off { s with mem := m } = planSt2b draw zt pg base off s := by
  cases base <;> rfl

/-- Whether and why an instruction stops does not depend on memory. -/
theorem exec_withMemory_eq_stop (i : Instr) (s : State) (m : Memory) (e : Stop) :
    exec i s = e.outcome ↔ exec i { s with mem := m } = e.outcome := by
  cases i with
  | st2b zt pg base off =>
    refine execSt2b_eq_stop.trans (Iff.trans ?_ execSt2b_eq_stop.symm)
    simp only [planSt2b_withMemory]

/-- The state an instruction leaves over another memory: the same byte stores made there, all else the same. -/
theorem exec_withMemory_eq_next {i : Instr} {s t : State} (h : exec i s = .next t) (m : Memory) :
    ∃ l, t.mem = Memory.writeAll l s.mem ∧ exec i { s with mem := m } = .next { t with mem := Memory.writeAll l m } := by
  cases i with
  | st2b zt pg base off =>
    obtain ⟨plan, hplan, hclear, rfl⟩ := execSt2b_eq_next.1 h
    exact ⟨plan.stores, rfl, execSt2b_eq_next.2 ⟨plan, (planSt2b_withMemory ..).trans hplan, hclear, rfl⟩⟩

/-- Settles O31: the plan, and with it every stop and every byte store, is the same over both memories. -/
theorem dataMemoryIsNeverRead : Obligations.DataMemoryIsNeverRead := by
  intro i s m hs hm
  refine ⟨fun k => exec_withMemory_eq_stop i s m (.fault k), fun r => exec_withMemory_eq_stop i s m (.refuse r),
    fun t ht => ?_⟩
  obtain ⟨writes, hmem, ht'⟩ := exec_withMemory_eq_next ht m
  refine ⟨_, ht', rfl, fun a => ?_⟩
  rw [hmem]
  exact Memory.read_writeAll_cases writes hs hm a

end Sys2Proof.Machine
end

section
/-! SUPPORT. Memory (spec/20_memory.md R31 to R48): instruction bytes and where they lie, which bytes a store reaches,
in what order and with what descriptor, and what never decides the outcome. -/

/-! ## Instruction bytes (R35, D1; log 23) -/

namespace Sys2Proof

/-- A word is put together again from its bytes (R35). -/
@[simp] theorem wordOfBytes_bytesOfWord (w : Word32) :
    wordOfBytes (w.extractLsb 7 0) (w.extractLsb 15 8) (w.extractLsb 23 16) (w.extractLsb 31 24) = w := by
  unfold wordOfBytes
  refine BitVec.eq_of_getLsbD_eq fun i hi => ?_
  simp only [BitVec.getLsbD_append, BitVec.getLsbD_extractLsb]
  interval_cases i <;> simp

theorem decodeBytes_bytesOfWord (w : Word32) : decodeBytes (bytesOfWord w) = decodeWord w :=
  congrArg decodeWord (wordOfBytes_bytesOfWord w)

/-- The table's number of a whole word is its value. -/
theorem tableWord_toNat (w : Word32) : tableWord 32 w.toNat = w :=
  BitVec.eq_of_toNat_eq (by simp [tableWord, Nat.mod_eq_of_lt w.isLt])

theorem decodeTableWord_eq_some {w : Word32} {i : Instr} :
    decodeTableWord 32 w.toNat = some i ↔ decodeWord w = .ok i := by
  rw [decodeTableWord, tableWord_toNat, decodeBytes_bytesOfWord]
  cases decodeWord w <;> simp

/-- Settles O6: the bytes of a word make the word again, and so does its value. -/
theorem bytesAndTableWordsDecodeAsTheWord : Obligations.BytesAndTableWordsDecodeAsTheWord :=
  fun w => ⟨decodeBytes_bytesOfWord w, fun _ => decodeTableWord_eq_some⟩

/-- Within `2^64` bytes of the start of a block an address further on is not the start (R100). -/
theorem add_ofNat_toNat_ne (b : Addr) {k : Nat} (h0 : 0 < k) (h : k < 2 ^ 64) :
    (b + BitVec.ofNat 64 k).toNat ≠ b.toNat := by
  rw [BitVec.toNat_add, BitVec.toNat_ofNat]
  omega

/-- A block that does not meet itself holds its word `j` at `4 j` bytes from its start, across a wrap too (R100). -/
theorem ProgramText.wordAt_block {ws : List Word32} {b : Addr} {j : Nat} {w : Word32} (hlen : ws.length ≤ 2 ^ 62)
    (hj : ws[j]? = some w) : (ProgramText.block b ws).wordAt (b + BitVec.ofNat 64 (4 * j)).toNat = some w := by
  induction ws generalizing b j with
  | nil => simp at hj
  | cons v rest ih =>
    rw [ProgramText.block, ProgramText.wordAt_put]
    rw [List.length_cons] at hlen
    cases j with
    | zero => simpa using hj
    | succ j =>
      rw [List.getElem?_cons_succ] at hj
      have hj' : j < rest.length := (List.getElem?_eq_some_iff.1 hj).1
      have hnext : b + BitVec.ofNat 64 (4 * (j + 1)) = b + 4 + BitVec.ofNat 64 (4 * j) := by
        rw [BitVec.add_assoc, show 4 * (j + 1) = 4 + 4 * j by omega, BitVec.ofNat_add]
        rfl
      rw [if_neg (add_ofNat_toNat_ne b (by omega) (by omega)), hnext]
      exact ih (by omega) hj

end Sys2Proof

namespace Sys2Proof.Machine

/-- The bytes of words, one word after another, are those words (R35, R100). -/
theorem wordsOfBytes_flatMap (ws : List Word32) : wordsOfBytes (ws.flatMap bytesOfWord) = ws := by
  induction ws with
  | nil => rfl
  | cons w rest ih => exact congrArg₂ List.cons (wordOfBytes_bytesOfWord w) ih

/-- Settles O47: the loaded words are the given ones, and the block holds them in order. -/
theorem loadedBytesAreFetchedWordForWord : Obligations.LoadedBytesAreFetchedWordForWord :=
  fun b ws => ⟨congrArg (ProgramText.block b) (wordsOfBytes_flatMap ws),
    fun _ hlen _ _ hj => ProgramText.wordAt_block hlen.le hj⟩

/-! ## Stops that are no store's (R36 to R38, R68, R86) -/

/-- The one fault a byte store raises is the data abort at its address (R85). -/
theorem stopAt_eq_fault {cfg : Config} {a : Addr} {k : Fault} (h : stopAt cfg a = .fault k) : k = .dataAbort a := by
  unfold stopAt at h
  split_ifs at h
  cases h
  rfl

/-- Any other fault of ST2B comes from the steps before the store loop (R87). -/
theorem planSt2b_eq_error_of_exec {zt pg : Nat} {base : BaseReg} {off : Int} {s : State} {k : Fault}
    (h : exec (.st2b zt pg base off) s = .fault k) (hk : ∀ a, k ≠ .dataAbort a) :
    planSt2b (Config.checkSpNoneActive s.draws) zt pg base off s = .error (.fault k) := by
  rcases execSt2b_eq_stop (e := .fault k).1 h with hplan | ⟨_, -, _, a, _, _, -, -, -, hstop⟩
  · exact hplan
  · exact absurd (stopAt_eq_fault hstop.symm) (hk a)

/-- Settles O23: the fault comes from the steps before the store loop, which raise it for a misaligned `sp` only. -/
theorem alignmentFaultOnlyForMisalignedSp : Obligations.AlignmentFaultOnlyForMisalignedSp := by
  intro s zt pg base off h
  have hplan := planSt2b_eq_error_of_exec h (by simp)
  rcases planSt2b_eq_error hplan with ⟨⟨⟩, -⟩ | ⟨⟨⟩, -⟩ | ⟨-, hsp⟩ | ⟨⟨⟩, -⟩ | ⟨⟨⟩, -⟩ | ⟨⟨⟩, -⟩ | ⟨⟨⟩, -⟩
  exact hsp

/-- No instruction faults for the alignment of `pc`: that is the fetch's fault (R38). -/
theorem exec_ne_pcAlignment (i : Instr) (s : State) : exec i s ≠ .fault .pcAlignment := by
  cases i with
  | st2b zt pg base off =>
    intro h
    have hplan := planSt2b_eq_error_of_exec h (by simp)
    rcases planSt2b_eq_error hplan with ⟨⟨⟩, -⟩ | ⟨⟨⟩, -⟩ | ⟨⟨⟩, -⟩ | ⟨⟨⟩, -⟩ | ⟨⟨⟩, -⟩ | ⟨⟨⟩, -⟩ | ⟨⟨⟩, -⟩

/-- What stops the fetch (R38, R50, R101). -/
theorem fetch_eq_error {s : State} {e : Stop} :
    fetch s = .error e ↔ (pcMisaligned s.pc = true ∧ e = .fault .pcAlignment) ∨
      (pcMisaligned s.pc = false ∧ s.cfg.programText.wordAt s.pc.toNat = none ∧ e = .refuse .endOfRun) := by
  unfold fetch raise refuse
  cases pcMisaligned s.pc <;> cases s.cfg.programText.wordAt s.pc.toNat <;> simp [eq_comm]

/-- Fetch and decode fault for the alignment of `pc` exactly when it is misaligned (R38). -/
theorem fetchInstr_eq_pcAlignment {s : State} :
    fetchInstr s = .error (.fault .pcAlignment) ↔ pcMisaligned s.pc = true := by
  rw [fetchInstr, Result.bind_eq_error, fetch_eq_error]
  simp [decodeStep_eq_error]

/-- Settles O37: the fetch raises this fault, first of all and for a misaligned `pc` only; no instruction raises it. -/
theorem misalignedPcFaults : Obligations.MisalignedPcFaults := by
  intro s hr
  rw [← pcMisaligned_eq_true_iff, ← fetchInstr_eq_pcAlignment]
  cases hi : fetchInstr s with
  | error e =>
    rw [step_of_no_fetch hr hi, Except.error.injEq]
    exact Stop.outcome_inj (e' := .fault .pcAlignment)
  | ok i =>
    rw [step_of_fetch hr hi]
    exact iff_of_false (exec_ne_pcAlignment i s) (by simp)

/-! ## The byte addresses of one execution (R31, R32, R43) -/

/-- Two bytes for each of the `VL/8` elements are at most `VL/4`. -/
theorem two_mul_elements_le (cfg : Config) : 2 * cfg.elements ≤ cfg.vl / 4 := by
  unfold Config.elements
  omega

/-- Settles O14: `structureAddress_inj` within the `VL/4` bytes of an execution. -/
theorem storeAddressesAreDistinct : Obligations.StoreAddressesAreDistinct :=
  fun _ _ _ _ _ _ _ _ _ _ _ hr hr' h => structureAddress_inj hr hr' (by omega) (by omega) h

/-- Every store of a plan goes to a byte of an active structure (R32, R71). -/
theorem address_of_mem_stores {draw : Bool} {zt pg : Nat} {base : BaseReg} {off : Int} {s : State} {plan : StorePlan}
    {pv : ScalableBits} {b : Addr} (h : planSt2b draw zt pg base off s = .ok plan) (hp : s.pAt pg = some pv)
    (hb : s.baseAt base = some b) {q : Addr × Byte} (hq : q ∈ plan.stores) :
    ∃ e r, ActiveIn s.cfg pv e ∧ r < 2 ∧ q.1 = storeAddress s.cfg base b off e r := by
  obtain ⟨-, pv', b', v0, v1, hp', hb', -, -, rfl⟩ := planSt2b_ok_contents h
  cases hp.symm.trans hp'
  cases hb.symm.trans hb'
  obtain ⟨e, he, rfl | rfl⟩ := mem_stores_iff.1 hq
  · exact ⟨e, 0, he, by decide, rfl⟩
  · exact ⟨e, 1, he, by decide, rfl⟩

/-- Settles O12: memory is the old one with the plan's stores made, and those go to active structures. -/
theorem completionKeepsBytesOutsideActiveStructures : Obligations.CompletionKeepsBytesOutsideActiveStructures := by
  intro s t zt pg base off pv b h hp hb a ha
  obtain ⟨plan, hplan, -, rfl⟩ := execSt2b_eq_next.1 h
  refine Memory.read_writeAll_other plan.stores s.mem fun q hq => ?_
  obtain ⟨e, r, he, hr, hqa⟩ := address_of_mem_stores hplan hp hb hq
  rw [hqa]
  exact ha e r he hr

/-! ## How many stores (R31) -/

/-- An active structure makes two byte stores, an inactive one none. -/
theorem length_structureStores {pl vl : Nat} (mask : BitVec pl) (v0 v1 : BitVec vl) (addr0 : Addr) (desc : AccDesc)
    (e : Nat) : (structureStores mask v0 v1 addr0 desc e).length = if mask.getLsbD e = true then 2 else 0 := by
  rw [structureStores, activePredicateElement_byte]
  split_ifs <;> rfl

theorem length_interleavedStores {pl vl : Nat} (n : Nat) (mask : BitVec pl) (v0 v1 : BitVec vl) (addr0 : Addr)
    (desc : AccDesc) :
    (interleavedStores n mask v0 v1 addr0 desc).length = 2 * (List.range n).countP (fun e => mask.getLsbD e) := by
  induction n with
  | zero => rfl
  | succ n ih =>
    rw [interleavedStores_succ, List.length_append, ih, length_structureStores, List.range_succ, List.countP_append,
      List.countP_singleton]
    split_ifs <;> omega

/-- A plan has two byte stores for each active element. -/
theorem length_plan_stores {draw : Bool} {zt pg : Nat} {base : BaseReg} {off : Int} {s : State} {plan : StorePlan}
    {pv : ScalableBits} (h : planSt2b draw zt pg base off s = .ok plan) (hp : s.pAt pg = some pv) :
    plan.stores.length = 2 * (List.range (s.cfg.vl / 8)).countP (fun e => pv.testBit e) := by
  obtain ⟨-, pv', b, v0, v1, hp', -, -, -, rfl⟩ := planSt2b_ok_contents h
  cases hp.symm.trans hp'
  rw [length_interleavedStores]
  refine congrArg (2 * ·) (List.countP_congr fun e he => ?_)
  rw [getLsbD_ofNat_of_lt (n := s.cfg.pl) (List.mem_range.1 he)]

theorem Memory.writeAll_eq_foldl (l : List (Addr × Byte)) (m : Memory) :
    Memory.writeAll l m = l.foldl (fun m q => m.write q.1 q.2) m := by
  induction l generalizing m with
  | nil => rfl
  | cons q rest ih => exact ih _

/-- Settles O16: the length of the plan's stores, and the memory a completion leaves. -/
theorem byteStoresAreTwiceTheActiveElements : Obligations.ByteStoresAreTwiceTheActiveElements := by
  intro s draw zt pg base off pv plan hp hplan
  have hlen := length_plan_stores hplan hp
  refine ⟨hlen, ?_, fun t ht => ?_⟩
  · have hcount := List.countP_le_length (p := fun e => pv.testBit e) (l := List.range (s.cfg.vl / 8))
    rw [List.length_range] at hcount
    omega
  · obtain ⟨plan', hplan', -, rfl⟩ := st2b_eq_ok.1 ht
    cases hplan.symm.trans hplan'
    exact Memory.writeAll_eq_foldl plan.stores s.mem

/-! ## Order and repetition of the stores (R41, R46) -/

/-- Writes to pairwise different addresses may be made in any order. -/
theorem Memory.writeAll_perm {l l' : List (Addr × Byte)} (h : l.Perm l') (hnd : (l'.map Prod.fst).Nodup) {m : Memory}
    (hm : m.wf = true) : Memory.writeAll l m = Memory.writeAll l' m := by
  refine Memory.ext_read (Memory.wf_writeAll l hm) (Memory.wf_writeAll l' hm) fun a => ?_
  by_cases ha : ∃ b, (a, b) ∈ l'
  · obtain ⟨b, hb⟩ := ha
    rw [Memory.read_writeAll_mem l' hm hnd hb,
      Memory.read_writeAll_mem l hm ((h.map Prod.fst).nodup_iff.2 hnd) (h.mem_iff.2 hb)]
  · have hother : ∀ q ∈ l', a ≠ q.1 := fun q hq hqa => ha ⟨q.2, hqa ▸ hq⟩
    rw [Memory.read_writeAll_other l' m hother,
      Memory.read_writeAll_other l m fun q hq => hother q (h.mem_iff.1 hq)]

/-- A plan's stores go to pairwise different addresses (R43). -/
theorem nodup_plan_stores {draw : Bool} {zt pg : Nat} {base : BaseReg} {off : Int} {s : State} {plan : StorePlan}
    (h : planSt2b draw zt pg base off s = .ok plan) (hvl : s.cfg.vl / 4 ≤ 2 ^ 64) :
    (plan.stores.map Prod.fst).Nodup := by
  obtain ⟨-, pv, b, v0, v1, -, -, -, -, rfl⟩ := planSt2b_ok_contents h
  exact nodup_interleavedStores ((two_mul_elements_le s.cfg).trans hvl)

/-- Settles O18: the reordered stores have the same clear addresses, all different, hence leave the same memory. -/
theorem storeOrderDoesNotMatter : Obligations.StoreOrderDoesNotMatter := by
  intro draw zt pg base off s plan l m hplan hvl hwf hperm hm
  obtain ⟨hclear, rfl⟩ := storeAll_eq_ok.1 hm
  refine storeAll_eq_ok.2 ⟨fun q hq => hclear q (hperm.mem_iff.1 hq), ?_⟩
  exact (Memory.writeAll_perm hperm (nodup_plan_stores hplan hvl) hwf).symm

/-- Writes made again over the memory they left change nothing: each byte they leave is either what they write, whatever
memory was there, or the byte of the memory they start from. -/
theorem Memory.writeAll_idem (l : List (Addr × Byte)) {m : Memory} (hm : m.wf = true) :
    Memory.writeAll l (Memory.writeAll l m) = Memory.writeAll l m := by
  have hl := Memory.wf_writeAll l hm
  refine Memory.ext_read (Memory.wf_writeAll l hl) hl fun a => ?_
  rcases Memory.read_writeAll_cases l hm hl a with hsame | ⟨-, hkeep⟩
  · exact hsame
  · exact hkeep

/-- Settles O19: over the memory it left the instruction makes the same writes again. -/
theorem st2bIsIdempotentOnMemory : Obligations.St2bIsIdempotentOnMemory := by
  intro i s t hwf h
  obtain ⟨writes, hmem, h'⟩ := exec_withMemory_eq_next h t.mem
  have hagain : Memory.writeAll writes t.mem = t.mem := by rw [hmem, Memory.writeAll_idem writes hwf]
  rw [hagain] at h'
  exact h'

/-! ## What `MemAdmit` and `ProgramText` are asked (R32, R40, R44, R48) -/

/-- Two configurations say the same of a byte store with this descriptor at this address. -/
def TreatAlike (cfg cfg' : Config) (desc : AccDesc) (a : Addr) : Prop :=
  cfg'.programText.covers a = cfg.programText.covers a ∧ cfg'.memAdmit a desc = cfg.memAdmit a desc

theorem storeByte_of_treatAlike {cfg cfg' : Config} {desc : AccDesc} {a : Addr} (h : TreatAlike cfg cfg' desc a)
    (b : Byte) (m : Memory) : storeByte cfg' desc a b m = storeByte cfg desc a b m := by
  obtain ⟨hcovers, hadmit⟩ := h
  rw [storeByte, storeByte, hcovers, hadmit]

/-- The store loop asks a configuration only about the addresses it stores to. -/
theorem storeAll_of_treatAlike {cfg cfg' : Config} {desc : AccDesc} {l : List (Addr × Byte)}
    (h : ∀ q ∈ l, TreatAlike cfg cfg' desc q.1) (m : Memory) : storeAll cfg' desc l m = storeAll cfg desc l m := by
  induction l generalizing m with
  | nil => rfl
  | cons q rest ih =>
    obtain ⟨hq, hrest⟩ := List.forall_mem_cons.1 h
    rw [storeAll_cons, storeAll_cons, storeByte_of_treatAlike hq, funext (ih hrest)]

/-- The state with other tables for `MemAdmit` and `ProgramText`. -/
def State.withTables (s : State) (refused : List RefusedRange) (text : ProgramText) : State :=
  { s with cfg := { s.cfg with memRefused := refused, programText := text } }

/-- The steps before the store loop ask neither table (R63 steps 1 to 6). -/
theorem planSt2b_withTables (draw : Bool) (zt pg : Nat) (base : BaseReg) (off : Int) (s : State)
    (refused : List RefusedRange) (text : ProgramText) :
    planSt2b draw zt pg base off (s.withTables refused text) = planSt2b draw zt pg base off s := by
  cases base <;> rfl

section
variable {s : State} {refused : List RefusedRange} {text : ProgramText} {zt pg : Nat} {base : BaseReg} {off : Int}

/-- Other tables that say the same of every store of the plan are carried through the operation. -/
theorem st2b_withTables {draw : Bool}
    (h : ∀ plan, planSt2b draw zt pg base off s = .ok plan →
      ∀ q ∈ plan.stores, TreatAlike s.cfg (s.withTables refused text).cfg plan.desc q.1) :
    st2b draw zt pg base off (s.withTables refused text) =
      (st2b draw zt pg base off s).map (fun t => { t with cfg := (s.withTables refused text).cfg }) := by
  unfold st2b
  rw [planSt2b_withTables]
  cases hplan : planSt2b draw zt pg base off s with
  | error e => rfl
  | ok plan =>
    have hmem : (s.withTables refused text).mem = s.mem := rfl
    simp only [Result.ok_bind, storeAll_of_treatAlike (h plan hplan), hmem]
    cases storeAll s.cfg plan.desc plan.stores s.mem <;> rfl

/-- Other tables that say the same of every store of the plan give the same outcome, with the other tables in it. -/
theorem exec_withTables
    (h : ∀ draw plan, planSt2b draw zt pg base off s = .ok plan →
      ∀ q ∈ plan.stores, TreatAlike s.cfg (s.withTables refused text).cfg plan.desc q.1) :
    exec (.st2b zt pg base off) (s.withTables refused text) =
      mapNext (fun t => { t with cfg := (s.withTables refused text).cfg }) (exec (.st2b zt pg base off) s) :=
  (congrArg Result.outcome (st2b_withTables (h _))).trans (Result.outcome_map _ _)

end

theorem planSt2b_desc {draw : Bool} {zt pg : Nat} {base : BaseReg} {off : Int} {s : State} {plan : StorePlan}
    (h : planSt2b draw zt pg base off s = .ok plan) : plan.desc = descSt2b base := by
  obtain ⟨-, _, _, _, _, -, -, -, -, rfl⟩ := planSt2b_ok_contents h
  rfl

/-- The descriptor of ST2B is tag-checked unless the base is `sp` (R40, R55). -/
theorem tagChecked_iff (base : BaseReg) : tagChecked base = true ↔ base ≠ .sp := by
  cases base <;> simp [tagChecked]

/-- The five fields that R40 gives settle the descriptor. -/
theorem eq_descSt2b {base : BaseReg} {desc : AccDesc} (hop : desc.op = .store) (hnt : desc.nontemporal = false)
    (hc : desc.contiguous = true) (hp : desc.predicated = true) (ht : desc.tagchecked = true ↔ base ≠ .sp) :
    desc = descSt2b base := by
  have htag : desc.tagchecked = tagChecked base := Bool.eq_iff_iff.2 (ht.trans (tagChecked_iff base).symm)
  cases desc
  subst hop hnt hc hp htag
  rfl

/-- Settles O15: the descriptor is the one R40 gives, and `MemAdmit` is asked with it alone. -/
theorem everyStoreCarriesTheDescriptor : Obligations.EveryStoreCarriesTheDescriptor := by
  intro zt pg base off s desc hop hnt hc hp ht
  obtain rfl := eq_descSt2b hop hnt hc hp ht
  refine ⟨fun _ _ => planSt2b_desc, fun refused hadmit => ?_⟩
  refine exec_withTables (text := s.cfg.programText) fun draw plan hplan q _ => ?_
  rw [planSt2b_desc hplan]
  exact ⟨rfl, hadmit q.1⟩

/-- Settles O29: the stores go to active structures only, so that nothing else is asked of the tables; and an inactive
structure's bytes are no active structure's (R43), hence keep what they held. -/
theorem inactiveStructuresAreNeverAccessed : Obligations.InactiveStructuresAreNeverAccessed := by
  intro s zt pg base off pv b hp hb
  refine ⟨fun refused text halike => exec_withTables fun draw plan hplan q hq => ?_,
    fun t e r hvl h he hinactive hr => ?_⟩
  · obtain ⟨e, r, hactive, hr, hqa⟩ := address_of_mem_stores hplan hp hb hq
    rw [planSt2b_desc hplan, hqa]
    exact halike e r hactive hr
  · refine completionKeepsBytesOutsideActiveStructures s t zt pg base off pv b h hp hb _ fun e' r' he' hr' heq => ?_
    obtain ⟨rfl, -⟩ := storeAddressesAreDistinct s.cfg base b off e r e' r' hvl he he'.1 hr hr' heq
    exact hinactive he'

/-! ## The values stored (R44, R74, R75; D11) -/

/-- What stops a computation, if anything does. -/
def Result.stop {α : Type} : Result α → Option Stop
  | .ok _ => none
  | .error e => some e

theorem Result.stop_eq_some {α : Type} {r : Result α} {e : Stop} : Result.stop r = some e ↔ r = .error e := by
  cases r <;> simp [Result.stop]

theorem Result.stop_eq_none {α : Type} {r : Result α} : Result.stop r = none ↔ ∃ a, r = .ok a := by
  cases r <;> simp [Result.stop]

/-- Computations that stop alike are the same to the host but for the next state. -/
theorem Result.outcome_alike_of_stop {r r' : Result State} (h : Result.stop r = Result.stop r') :
    (∀ k, r.outcome = .fault k ↔ r'.outcome = .fault k) ∧ (∀ k, r.outcome = .refused k ↔ r'.outcome = .refused k) ∧
      ((∃ t, r.outcome = .next t) ↔ ∃ t, r'.outcome = .next t) := by
  simp only [Result.outcome_eq_fault, Result.outcome_eq_refused, Result.outcome_eq_next, ← Result.stop_eq_some,
    ← Result.stop_eq_none, h, implies_true, and_self]

/-- Two computations in sequence stop alike when the first parts do, and the second parts wherever they are reached. -/
theorem Result.stop_bind_congr {α β γ δ : Type} {r : Result α} {r' : Result β} {f : α → Result γ} {f' : β → Result δ}
    (h : Result.stop r = Result.stop r')
    (hf : ∀ a a', r = .ok a → r' = .ok a' → Result.stop (f a) = Result.stop (f' a')) :
    Result.stop (r >>= f) = Result.stop (r' >>= f') := by
  cases r with
  | error e =>
    rw [Result.stop_eq_some.1 h.symm]
    rfl
  | ok a =>
    obtain ⟨a', rfl⟩ := Result.stop_eq_none.1 h.symm
    exact hf a a' rfl rfl

/-- A common first part leaves only the second parts to compare. -/
theorem Result.stop_bind_right {α γ δ : Type} {r : Result α} {f : α → Result γ} {f' : α → Result δ}
    (hf : ∀ a, Result.stop (f a) = Result.stop (f' a)) : Result.stop (r >>= f) = Result.stop (r >>= f') := by
  refine Result.stop_bind_congr rfl fun a a' h h' => ?_
  cases h.symm.trans h'
  exact hf a

/-- A byte store stops for its address, whatever the byte and the memory are (R44, D11). -/
theorem stop_storeByte (cfg : Config) (desc : AccDesc) (a : Addr) (b b' : Byte) (m m' : Memory) :
    Result.stop (storeByte cfg desc a b m) = Result.stop (storeByte cfg desc a b' m') := by
  by_cases h : Clear cfg desc a
  · rw [storeByte_clear h, storeByte_clear h]
    rfl
  · rw [storeByte_not_clear h, storeByte_not_clear h]

/-- Byte stores to the same addresses stop alike. -/
theorem stop_storeAll (cfg : Config) (desc : AccDesc) {l l' : List (Addr × Byte)}
    (h : l.map Prod.fst = l'.map Prod.fst) (m m' : Memory) :
    Result.stop (storeAll cfg desc l m) = Result.stop (storeAll cfg desc l' m') := by
  induction l generalizing l' m m' with
  | nil =>
    rw [List.map_nil, eq_comm, List.map_eq_nil_iff] at h
    rw [h]
    rfl
  | cons q rest ih =>
    obtain ⟨q', rest', rfl, hq, hrest⟩ := List.map_eq_cons_iff.1 h.symm
    obtain ⟨a, b⟩ := q
    obtain ⟨a', b'⟩ := q'
    obtain rfl : a' = a := hq
    rw [storeAll_cons, storeAll_cons]
    exact Result.stop_bind_congr (stop_storeByte cfg desc a' b b' m m') fun _ _ _ _ => ih hrest.symm _ _

/-- Where the stores go does not depend on the vectors (R71). -/
theorem addresses_interleavedStores {pl vl : Nat} (n : Nat) (mask : BitVec pl) (v0 v1 w0 w1 : BitVec vl) (addr0 : Addr)
    (desc : AccDesc) :
    (interleavedStores n mask v0 v1 addr0 desc).map Prod.fst =
      (interleavedStores n mask w0 w1 addr0 desc).map Prod.fst := by
  simp only [interleavedStores, List.map_flatMap]
  refine List.flatMap_congr fun e _ => ?_
  unfold structureStores
  split_ifs <;> rfl

section
variable {s : State} {z : Vector (Option ScalableBits) 32}

/-- A vector register that does not exist has no value, so that the registers that do settle which have one. -/
theorem isSome_zAt_withVectors (h : ∀ n, n ≤ 31 → (({ s with z := z } : State).zAt n).isSome = (s.zAt n).isSome)
    (n : Nat) : (({ s with z := z } : State).zAt n).isSome = (s.zAt n).isSome := by
  by_cases hn : n ≤ 31
  · exact h n hn
  · have hout : 32 ≤ n := by omega
    simp [State.zAt, hout]

/-- A vector read stops exactly when the register has no value (R29). -/
theorem stop_readZ (s : State) (i : Nat) :
    Result.stop (readZ s i) = if (s.zAt i).isSome = true then none else some (.fault (.unwrittenRegister (.z i))) := by
  rw [readZ_eq]
  cases s.zAt i <;> rfl

/-- With values in the same vector registers the steps before the store loop stop alike (R63 steps 1 to 6). -/
theorem stop_planSt2b_withVectors (hz : ∀ n, (({ s with z := z } : State).zAt n).isSome = (s.zAt n).isSome)
    (draw : Bool) (zt pg : Nat) (base : BaseReg) (off : Int) :
    Result.stop (planSt2b draw zt pg base off { s with z := z }) = Result.stop (planSt2b draw zt pg base off s) := by
  have hread : ∀ i, Result.stop (readZ { s with z := z } i) = Result.stop (readZ s i) := by
    intro i
    rw [stop_readZ, stop_readZ, hz]
  unfold planSt2b
  refine Result.stop_bind_right fun _ => Result.stop_bind_right fun _ => Result.stop_bind_right fun _ => ?_
  refine Result.stop_bind_right fun _ => Result.stop_bind_right fun _ => ?_
  exact Result.stop_bind_congr (hread zt) fun _ _ _ _ => Result.stop_bind_congr (hread _) fun _ _ _ _ => rfl

/-- Plans over different vector contents store to the same addresses. -/
theorem planSt2b_withVectors_addresses {draw : Bool} {zt pg : Nat} {base : BaseReg} {off : Int} {plan plan' : StorePlan}
    (h : planSt2b draw zt pg base off s = .ok plan) (h' : planSt2b draw zt pg base off { s with z := z } = .ok plan') :
    plan'.stores.map Prod.fst = plan.stores.map Prod.fst := by
  obtain ⟨-, pv, b, v0, v1, hp, hb, -, -, rfl⟩ := planSt2b_ok_contents h
  obtain ⟨-, pv', b', v0', v1', hp', hb', -, -, rfl⟩ := planSt2b_ok_contents h'
  obtain rfl : pv = pv' := Option.some.inj (hp.symm.trans hp')
  have hbase : ({ s with z := z } : State).baseAt base = s.baseAt base := by cases base <;> rfl
  obtain rfl : b = b' := Option.some.inj (hb.symm.trans (hbase.symm.trans hb'))
  exact addresses_interleavedStores ..

/-- With values in the same vector registers ST2B stops alike (R44, R74). -/
theorem stop_st2b_withVectors (hz : ∀ n, (({ s with z := z } : State).zAt n).isSome = (s.zAt n).isSome)
    (draw : Bool) (zt pg : Nat) (base : BaseReg) (off : Int) :
    Result.stop (st2b draw zt pg base off { s with z := z }) = Result.stop (st2b draw zt pg base off s) := by
  unfold st2b
  refine Result.stop_bind_congr (stop_planSt2b_withVectors hz draw zt pg base off) fun plan' plan h' h => ?_
  refine Result.stop_bind_congr ?_ fun _ _ _ _ => rfl
  rw [planSt2b_desc h', planSt2b_desc h]
  exact stop_storeAll s.cfg _ (planSt2b_withVectors_addresses h h') _ _

end

/-- Settles O33: ST2B stops alike over both contents of the vector registers, or over neither. -/
theorem storedValuesNeverDecideTheOutcome : Obligations.StoredValuesNeverDecideTheOutcome
  | .st2b zt pg base off, s, _, hz =>
    Result.outcome_alike_of_stop
      (stop_st2b_withVectors (isSome_zAt_withVectors hz) (Config.checkSpNoneActive s.draws) zt pg base off).symm

end Sys2Proof.Machine
end

section
/-! SUPPORT. Encoding (spec/30_encoding.md R50 to R62): fields and operands, words and instructions, one flipped bit, the
assembler, and how the fetched word decides what a step runs. -/

/-! ## Operands and their fields (R53 to R56) -/

namespace Sys2Proof

/-- A well-formed base has a number of five bits (R55). -/
theorem encodeBase_le {base : BaseReg} (h : base.wf = true) : encodeBase base ≤ 31 := by
  cases base with
  | x n => exact (of_decide_eq_true h : n ≤ 30).trans (by decide)
  | sp => exact le_rfl

/-- The number of a well-formed base names it: no `Xn` has the number 31, which is `sp` (R55). -/
theorem decodeBase_encodeBase {base : BaseReg} (h : base.wf = true) : decodeBase (encodeBase base) = base := by
  cases base with
  | x n =>
    have hn : n ≤ 30 := of_decide_eq_true h
    have h31 : ¬ n = 31 := by omega
    exact if_neg h31
  | sp => rfl

/-- Every number of the field names a base with that number (R55). -/
theorem encodeBase_decodeBase (n : Nat) : encodeBase (decodeBase n) = n := by
  unfold decodeBase
  split_ifs with h
  · exact h.symm
  · rfl

theorem wf_decodeBase {n : Nat} (h : n ≤ 31) : (decodeBase n).wf = true := by
  unfold decodeBase
  split_ifs with h31
  · rfl
  · exact decide_eq_true (by omega)

/-- The field `imm4` holds every signed value in range (R53). -/
theorem toInt_ofInt_imm4 {off : Int} (hlo : -8 ≤ off) (hhi : off ≤ 7) : (BitVec.ofInt 4 off).toInt = off :=
  BitVec.toInt_ofInt_eq_self (by decide) hlo (Int.lt_add_one_of_le hhi)

/-! ## Words and instructions (R51, R52, R59) -/

/-- The instruction with the four fields given. -/
def instrOfFields (imm4 : BitVec 4) (pg : BitVec 3) (rn zt : BitVec 5) : Instr :=
  .st2b zt.toNat pg.toNat (decodeBase rn.toNat) imm4.toInt

/-- A packed word decodes to its fields, whatever they are (R52, R59). -/
theorem decodeWord_packSt2b (imm4 : BitVec 4) (pg : BitVec 3) (rn zt : BitVec 5) :
    decodeWord (packSt2b imm4 pg rn zt) = .ok (instrOfFields imm4 pg rn zt) := by
  refine decodeWord_eq_ok.2 ⟨packSt2b_fixed imm4 pg rn zt, ?_⟩
  rw [packSt2b_zt, packSt2b_pg, packSt2b_rn, packSt2b_imm4]
  rfl

/-- The fixed bits 31:20 written as one number (R51). -/
theorem packSt2b_eq_append (imm4 : BitVec 4) (pg : BitVec 3) (rn zt : BitVec 5) :
    0b111001000011#12 ++ imm4 ++ 0b111#3 ++ pg ++ rn ++ zt = packSt2b imm4 pg rn zt := rfl

/-- Fields are encoded as they are (R51). -/
theorem encode_instrOfFields (imm4 : BitVec 4) (pg : BitVec 3) (rn zt : BitVec 5) :
    encode (instrOfFields imm4 pg rn zt) = packSt2b imm4 pg rn zt := by
  simp [instrOfFields, encode, encodeBase_decodeBase]

theorem wf_instrOfFields (imm4 : BitVec 4) (pg : BitVec 3) (rn zt : BitVec 5) :
    (instrOfFields imm4 pg rn zt).wf = true :=
  Machine.st2b_wf_iff.2 ⟨Nat.le_of_lt_succ zt.isLt, Nat.le_of_lt_succ pg.isLt,
    wf_decodeBase (Nat.le_of_lt_succ rn.isLt), imm4.le_toInt, Int.le_of_lt_add_one imm4.toInt_lt⟩

/-- The operands of a well-formed instruction fit their fields (R53 to R56). -/
theorem instrOfFields_of_wf {zt pg : Nat} {base : BaseReg} {off : Int} (h : (Instr.st2b zt pg base off).wf = true) :
    instrOfFields (BitVec.ofInt 4 off) (BitVec.ofNat 3 pg) (BitVec.ofNat 5 (encodeBase base)) (BitVec.ofNat 5 zt) =
      .st2b zt pg base off := by
  obtain ⟨hzt, hpg, hbase, hlo, hhi⟩ := Machine.st2b_wf_iff.1 h
  have hrn := encodeBase_le hbase
  rw [instrOfFields, BitVec.toNat_ofNat, Nat.mod_eq_of_lt (by omega), BitVec.toNat_ofNat, Nat.mod_eq_of_lt (by omega),
    BitVec.toNat_ofNat, Nat.mod_eq_of_lt (by omega), decodeBase_encodeBase hbase, toInt_ofInt_imm4 hlo hhi]

theorem decodeWord_encode {i : Instr} (h : i.wf = true) : decodeWord (encode i) = .ok i := by
  cases i with
  | st2b zt pg base off => exact (decodeWord_packSt2b _ _ _ _).trans (congrArg Except.ok (instrOfFields_of_wf h))

/-- Settles O1: the operands fit their fields, so the packed word decodes to them, and its bytes make the word again. -/
theorem decodeOfEncodeIsTheInstruction : Obligations.DecodeOfEncodeIsTheInstruction :=
  fun i h => ⟨decodeWord_encode h, (decodeBytes_bytesOfWord (encode i)).trans (decodeWord_encode h)⟩

/-- A word with the fixed bits in place is its four fields packed: fixed bits and fields make up all 32 bits (R51). -/
theorem packSt2b_fields {w : Word32} (h : w &&& st2bMask = st2bMatch) :
    packSt2b (field w 19 16) (field w 12 10) (field w 9 5) (field w 4 0) = w := by
  refine BitVec.eq_of_getLsbD_eq fun k hk => ?_
  have hfixed : (w.getLsbD k && st2bMask.getLsbD k) = st2bMatch.getLsbD k := by rw [← BitVec.getLsbD_and, h]
  unfold packSt2b field
  simp only [BitVec.getLsbD_append, BitVec.getLsbD_extractLsb]
  interval_cases k <;> simp_all [st2bMask, st2bMatch]

/-- What a word decodes to encodes to that word and has its operands in range. -/
theorem wf_and_encode_of_decodeWord {w : Word32} {i : Instr} (h : decodeWord w = .ok i) :
    i.wf = true ∧ encode i = w := by
  obtain ⟨hfixed, rfl⟩ := decodeWord_eq_ok.1 h
  exact ⟨wf_instrOfFields _ _ _ _, (encode_instrOfFields _ _ _ _).trans (packSt2b_fields hfixed)⟩

/-- Settles O2, from `packSt2b_fields`. -/
theorem encodeOfDecodeIsTheWord : Obligations.EncodeOfDecodeIsTheWord :=
  fun _ _ => wf_and_encode_of_decodeWord

/-- Two words that decode alike are one word: each is the encoding of what it decodes to. -/
theorem eq_of_decodeWord_eq {w w' : Word32} {i : Instr} (h : decodeWord w = .ok i) (h' : decodeWord w' = .ok i) :
    w = w' :=
  (wf_and_encode_of_decodeWord h).2.symm.trans (wf_and_encode_of_decodeWord h').2

/-! ## One flipped bit (spec/95_test_vectors.md section 2.2) -/

/-- Which bits are fixed (R52). -/
theorem getLsbD_st2bMask {k : Nat} (h : k < 32) :
    st2bMask.getLsbD k = true ↔ (12 < k ∧ k < 16) ∨ 19 < k := by
  unfold st2bMask
  interval_cases k <;> simp

/-- A flipped bit is seen through a mask exactly at the mask's own bits. -/
theorem flip_and (w mask : Word32) (k : Nat) :
    (w ^^^ (1#32 <<< k)) &&& mask = (w &&& mask) ^^^ (if mask.getLsbD k = true then 1#32 <<< k else 0#32) := by
  rw [← BitVec.twoPow_eq, ← BitVec.twoPow_and]
  refine BitVec.eq_of_getLsbD_eq fun j _ => ?_
  simp only [BitVec.getLsbD_and, BitVec.getLsbD_xor, Bool.and_xor_distrib_right]

theorem flip_ne (w : Word32) {k : Nat} (h : k < 32) : w ^^^ (1#32 <<< k) ≠ w := by
  intro heq
  have hbit := congrArg (BitVec.getLsbD · k) heq
  simp [← BitVec.twoPow_eq, h] at hbit

/-- Settles O4: the match sees a flipped bit exactly where the mask has one; a word that still matches is another word,
and another word is another instruction. -/
theorem oneFlippedBitLeavesTheEncodingExactlyWhenFixed :
    Obligations.OneFlippedBitLeavesTheEncodingExactlyWhenFixed := by
  intro w i k hdecode hk
  have hmatch := (decodeWord_eq_ok.1 hdecode).1
  refine ⟨fun hfixed => decodeWord_eq_error.2 ⟨?_, rfl⟩, fun hfree => ?_⟩
  · rw [flip_and, if_pos ((getLsbD_st2bMask hk).2 hfixed), hmatch]
    exact flip_ne st2bMatch hk
  · have hmask : ¬ st2bMask.getLsbD k = true := fun h => absurd ((getLsbD_st2bMask hk).1 h) (by omega)
    have hflip : (w ^^^ (1#32 <<< k)) &&& st2bMask = st2bMatch := by
      rw [flip_and, if_neg hmask, hmatch, BitVec.xor_zero]
    have hother := decodeWord_eq_ok.2 ⟨hflip, rfl⟩
    exact ⟨_, fun hsame => flip_ne w hk (eq_of_decodeWord_eq (hother.trans (congrArg Except.ok hsame)) hdecode), hother⟩

end Sys2Proof

/-! ## The one decode-time condition (R59, R64, R82) -/

namespace Sys2Proof.Machine

/-- ST2B is `Undefined` exactly without both features: only the feature test raises the fault, and it comes first. -/
theorem exec_eq_undefined {zt pg : Nat} {base : BaseReg} {off : Int} {s : State} :
    exec (.st2b zt pg base off) s = .fault .undefined ↔ s.cfg.featSve = false ∧ s.cfg.featSme = false := by
  constructor
  · intro h
    rcases planSt2b_eq_error (planSt2b_eq_error_of_exec h (by simp)) with
      ⟨-, hf⟩ | ⟨⟨⟩, -⟩ | ⟨⟨⟩, -⟩ | ⟨⟨⟩, -⟩ | ⟨⟨⟩, -⟩ | ⟨⟨⟩, -⟩ | ⟨⟨⟩, -⟩
    exact hf
  · intro hf
    refine execSt2b_eq_stop (e := .fault .undefined).2 (.inl ?_)
    rw [planSt2b_eq, if_pos hf]

/-- Settles O3: the word is a packed one, and packed words decode; only the feature test raises `Undefined`. -/
theorem everyFieldCombinationIsAnInstruction : Obligations.EveryFieldCombinationIsAnInstruction := by
  intro imm4 pg rn zt
  rw [packSt2b_eq_append]
  exact ⟨decodeWord_packSt2b imm4 pg rn zt, fun _ => exec_eq_undefined⟩

/-! ## The assembler (R61, R62) -/

/-- The operands that R62 lets an assembler accept. -/
structure AsmSt2b.Accepted (a : AsmSt2b) : Prop where
  zt1 : a.zt1 ≤ 31
  zt2 : a.zt2 = (a.zt1 + 1) % 32
  pg : a.pg ≤ 7
  base : a.base.wf = true
  even : a.imm.getD 0 % 2 = 0
  low : -16 ≤ a.imm.getD 0
  high : a.imm.getD 0 ≤ 14

/-- The conditions of R62 as one conjunction. -/
theorem AsmSt2b.accepted_iff {a : AsmSt2b} :
    a.Accepted ↔ a.zt1 ≤ 31 ∧ a.zt2 = (a.zt1 + 1) % 32 ∧ a.pg ≤ 7 ∧ a.base.wf = true ∧ a.imm.getD 0 % 2 = 0 ∧
      -16 ≤ a.imm.getD 0 ∧ a.imm.getD 0 ≤ 14 :=
  ⟨fun ⟨h1, h2, h3, h4, h5, h6, h7⟩ => ⟨h1, h2, h3, h4, h5, h6, h7⟩,
    fun ⟨h1, h2, h3, h4, h5, h6, h7⟩ => ⟨h1, h2, h3, h4, h5, h6, h7⟩⟩

/-- Operands that are not accepted break one of the conditions. -/
theorem AsmSt2b.not_accepted_iff {a : AsmSt2b} :
    ¬ a.Accepted ↔ a.zt1 > 31 ∨ a.zt2 ≠ (a.zt1 + 1) % 32 ∨ a.pg > 7 ∨ a.base.wf = false ∨ a.imm.getD 0 % 2 = 1 ∨
      a.imm.getD 0 < -16 ∨ a.imm.getD 0 > 14 := by
  simp only [AsmSt2b.accepted_iff, not_and_or, not_le, Bool.not_eq_true, Int.emod_two_ne_zero, gt_iff_lt, ne_eq]

/-- What the assembler accepts, and as what (R62): each of its tests refuses operands that are not `Accepted`, and what
passes all of them is. -/
theorem assemble_eq_ok {a : AsmSt2b} {i : Instr} :
    assemble a = .ok i ↔ a.Accepted ∧ i = .st2b a.zt1 a.pg a.base (a.imm.getD 0 / 2) := by
  simp only [assemble]
  split_ifs with hzt hnext hpg hbase hodd hrange
  · exact iff_of_false (by simp) fun ⟨ha, _⟩ => absurd ha.zt1 (by omega)
  · exact iff_of_false (by simp) fun ⟨ha, _⟩ => hnext ha.zt2
  · exact iff_of_false (by simp) fun ⟨ha, _⟩ => absurd ha.pg (by omega)
  · exact iff_of_false (by simp) fun ⟨ha, _⟩ => absurd ha.base (by simp [hbase])
  · exact iff_of_false (by simp) fun ⟨ha, _⟩ => hodd ha.even
  · exact iff_of_false (by simp) fun ⟨ha, _⟩ => hrange.elim (not_lt.2 ha.low) (not_lt.2 ha.high)
  · obtain ⟨hlow, hhigh⟩ := not_or.1 hrange
    have haccepted : a.Accepted := {
      zt1 := by omega
      zt2 := not_not.1 hnext
      pg := by omega
      base := eq_true_of_ne_false hbase
      even := not_not.1 hodd
      low := not_lt.1 hlow
      high := not_lt.1 hhigh }
    simp [haccepted, eq_comm]

/-- The assembler refuses exactly the operands it does not accept. -/
theorem exists_assemble_eq_error_iff {a : AsmSt2b} : (∃ x, assemble a = .error x) ↔ ¬ a.Accepted := by
  constructor
  · rintro ⟨x, hx⟩ ha
    cases hx.symm.trans (assemble_eq_ok.2 ⟨ha, rfl⟩)
  · intro hna
    cases hasm : assemble a with
    | ok i => exact absurd (assemble_eq_ok.1 hasm).1 hna
    | error x => exact ⟨x, rfl⟩

/-- Accepted operands stay in range once `<imm>` is halved (R53). -/
theorem AsmSt2b.Accepted.wf {a : AsmSt2b} (h : a.Accepted) :
    (Instr.st2b a.zt1 a.pg a.base (a.imm.getD 0 / 2)).wf = true := by
  have hlow := h.low
  have hhigh := h.high
  exact st2b_wf_iff.2 ⟨h.zt1, h.pg, h.base, by omega, by omega⟩

/-- The immediate that disassembly gives, written or left out, is `2 * off` (R62). -/
theorem disassemble_imm (zt pg : Nat) (base : BaseReg) (off : Int) :
    (disassemble (.st2b zt pg base off)).imm.getD 0 = 2 * off := by
  simp only [disassemble]
  split_ifs with h
  · simp [h]
  · rfl

theorem assemble_disassemble {i : Instr} (h : i.wf = true) : assemble (disassemble i) = .ok i := by
  cases i with
  | st2b zt pg base off =>
    obtain ⟨hzt, hpg, hbase, hlo, hhi⟩ := st2b_wf_iff.1 h
    have himm := disassemble_imm zt pg base off
    refine assemble_eq_ok.2 ⟨⟨hzt, rfl, hpg, hbase, by omega, by omega, by omega⟩, ?_⟩
    rw [himm, Int.mul_ediv_cancel_left off (by decide)]
    rfl

/-- The field `imm4` of an encoding (R51, R53). -/
theorem field_imm4_encode (zt pg : Nat) (base : BaseReg) (off : Int) :
    field (encode (.st2b zt pg base off)) 19 16 = BitVec.ofInt 4 off :=
  packSt2b_imm4 _ _ _ _

/-- Settles O7: what the assembler accepts are `Accepted` operands, and half of an even `<imm>` in range fits its field. -/
theorem assemblerAgreesWithTheEncoding : Obligations.AssemblerAgreesWithTheEncoding := by
  refine ⟨fun i => assemble_disassemble, fun a i hasm => ?_,
    fun a => exists_assemble_eq_error_iff.trans AsmSt2b.not_accepted_iff⟩
  obtain ⟨ha, rfl⟩ := assemble_eq_ok.1 hasm
  have heven := ha.even
  obtain ⟨-, -, -, hlo, hhi⟩ := st2b_wf_iff.1 ha.wf
  refine ⟨ha.wf, rfl, ha.zt2, ?_, ?_⟩
  · rw [field_imm4_encode, toInt_ofInt_imm4 hlo hhi]
    omega
  · rw [field_imm4_encode, BitVec.toNat_ofInt]
    omega

/-! ## What a step runs (R50, R60) -/

/-- An aligned `pc` where `ProgramText` has a word: the decode of that word is all that is left to settle (R50). -/
theorem fetchInstr_of_wordAt {s : State} {w : Word32} (hpc : s.pc.toNat % 4 = 0)
    (hw : s.cfg.programText.wordAt s.pc.toNat = some w) : fetchInstr s = decodeStep w := by
  rw [fetchInstr, fetch_eq_ok.2 ⟨(pcMisaligned_eq_false_iff s.pc).2 hpc, hw⟩, Result.ok_bind]

/-- Settles O36: the fetched word is the one given, and a step runs what was fetched and decoded. -/
theorem stepRunsTheDecodedInstruction : Obligations.StepRunsTheDecodedInstruction := by
  intro s w i hr hpc hw hi
  exact step_of_fetch hr ((fetchInstr_of_wordAt hpc hw).trans (decodeStep_eq_ok.2 hi))

/-- The steps before the store loop fault or go on; they never refuse (R87 items 3 to 7). -/
theorem planSt2b_ne_refuse {draw : Bool} {zt pg : Nat} {base : BaseReg} {off : Int} {s : State} (r : Refusal) :
    planSt2b draw zt pg base off s ≠ .error (.refuse r) := by
  intro h
  rcases planSt2b_eq_error h with ⟨⟨⟩, -⟩ | ⟨⟨⟩, -⟩ | ⟨⟨⟩, -⟩ | ⟨⟨⟩, -⟩ | ⟨⟨⟩, -⟩ | ⟨⟨⟩, -⟩ | ⟨⟨⟩, -⟩

/-- The one refusal of a byte store is that of R48, at its address. -/
theorem stopAt_eq_refuse {cfg : Config} {a : Addr} {r : Refusal} (h : stopAt cfg a = .refuse r) :
    r = .storeToProgramText a := by
  unfold stopAt at h
  split_ifs at h
  cases h
  rfl

/-- An instruction refuses nothing but a store into `ProgramText` (R48, R81). -/
theorem exec_eq_refused {i : Instr} {s : State} {r : Refusal} (h : exec i s = .refused r) :
    ∃ a, r = .storeToProgramText a := by
  cases i with
  | st2b zt pg base off =>
    rcases execSt2b_eq_stop (e := .refuse r).1 h with hplan | ⟨_, -, _, a, _, _, -, -, -, hstop⟩
    · exact absurd hplan (planSt2b_ne_refuse r)
    · exact ⟨a, stopAt_eq_refuse hstop.symm⟩

/-- Settles O38: the decode refuses exactly the words that do not match, and no instruction gives this refusal. -/
theorem unmatchedWordIsRefused : Obligations.UnmatchedWordIsRefused := by
  intro s w w' hr hpc hw
  have hfetch := fetchInstr_of_wordAt hpc hw
  cases hdecode : decodeWord w with
  | ok i =>
    have hmatch := (decodeWord_eq_ok.1 hdecode).1
    rw [step_of_fetch hr (hfetch.trans (decodeStep_eq_ok.2 hdecode))]
    refine iff_of_false (fun h => ?_) (fun h => h.2 hmatch)
    obtain ⟨a, ⟨⟩⟩ := exec_eq_refused h
  | error d =>
    have hno := (decodeWord_eq_error.1 hdecode).1
    rw [step_of_no_fetch hr (hfetch.trans (decodeStep_eq_error.2 ⟨⟨d, hdecode⟩, rfl⟩))]
    constructor
    · rintro ⟨⟩
      exact ⟨rfl, hno⟩
    · rintro ⟨rfl, -⟩
      rfl

/-! ## Placing a word (R107; log 5) -/

theorem alignDown_of_aligned {a : Addr} (h : a.toNat % 4 = 0) : alignDown a = a :=
  BitVec.eq_of_toNat_eq (by rw [alignDown_toNat, h, Nat.sub_zero])

/-- The value of a whole word places that word. -/
theorem State.withFetchWord_toNat (s : State) (w : Word32) : s.withFetchWord 32 w.toNat = s.placeWord w :=
  congrArg s.placeWord (tableWord_toNat w)

/-- Placing leaves an aligned `pc` with the word there and nothing recorded, so its decoding is what the step runs. -/
theorem step_placeWord {s : State} {w : Word32} {i : Instr} (h : decodeWord w = .ok i) :
    step (s.placeWord w) = exec i (s.placeWord w) := by
  refine step_of_fetch rfl (fetchInstr_eq_ok.2 ⟨pcMisaligned_alignDown s.pc, w, ?_, h⟩)
  rw [State.placeWord_programText, State.placeWord_pc, ProgramText.wordAt_put, if_pos rfl]

/-- Where `pc` is aligned and nothing recorded, placing changes `ProgramText` alone. -/
theorem State.placeWord_of_aligned {s : State} (hpc : s.pc.toNat % 4 = 0) (hr : s.recorded = none) (w : Word32) :
    s.placeWord w =
      { s with cfg := { s.cfg with programText := ProgramText.put s.pc.toNat w s.cfg.programText } } := by
  rw [State.placeWord, alignDown_of_aligned hpc, ← hr]

/-- Settles O48: the placed word is an encoding, so it decodes to the instruction. -/
theorem placedWordIsWhatTheNextStepRuns : Obligations.PlacedWordIsWhatTheNextStepRuns := by
  intro s i hi
  rw [State.withFetchWord_toNat]
  exact ⟨step_placeWord (decodeWord_encode hi), fun hpc hr => State.placeWord_of_aligned hpc hr (encode i)⟩

end Sys2Proof.Machine
end

section
/-! SUPPORT. ST2B (spec/40_st2b.md R63 to R79): its addresses, the order of its checks, what an execution without an
active element does, the whole effect of one with active elements, the byte that stops it, the page's loop, and runs. -/

namespace Sys2Proof.Machine

/-! ## Addresses (R43, R69, R71) -/

/-- The start address as a number (R69). -/
theorem startAddress_toNat (cfg : Config) (b : Addr) (off : Int) (desc : AccDesc) :
    ((startAddress cfg b off desc).toNat : Int) = ((b.toNat : Int) + byteOffset cfg off) % 2 ^ 64 := by
  rw [startAddress, addressAdd, BitVec.toNat_ofInt]
  omega

/-- The offset counts in units of `VL/4` bytes, the size of a whole execution (R53, R69). -/
theorem byteOffset_eq {cfg : Config} (off : Int) (h : cfg.vl % 8 = 0) :
    byteOffset cfg off = off * ((cfg.vl / 4 : Nat) : Int) := by
  have hvl : cfg.vl / 4 = cfg.elements * 2 := by
    unfold Config.elements
    omega
  rw [byteOffset, hvl, mul_one, mul_assoc]
  rfl

/-- Settles O13: both address functions reduce mod `2^64`, and so does their composition. -/
theorem storeAddressesAreScaledAndWrap : Obligations.StoreAddressesAreScaledAndWrap := by
  intro cfg base b off e r h
  have hstart := startAddress_toNat cfg b off (descSt2b base)
  rw [byteOffset_eq off h] at hstart
  rw [storeAddress, structureAddress_toNat]
  omega

/-- One increment after another is one by the sum (R13, R43). -/
theorem addressIncrement_addressIncrement (a : Addr) (j k : Nat) (desc : AccDesc) :
    addressIncrement (addressIncrement a j desc) k desc = addressIncrement a (j + k) desc := by
  apply BitVec.eq_of_toNat_eq
  simp only [addressIncrement, BitVec.toNat_ofNat, Nat.mod_add_mod, Nat.add_assoc]

@[simp] theorem structureAddress_zero (addr0 : Addr) (desc : AccDesc) : structureAddress addr0 0 0 desc = addr0 := by
  apply BitVec.eq_of_toNat_eq
  rw [structureAddress_toNat]
  exact Nat.mod_eq_of_lt addr0.isLt

/-! ## The page's loop (R71) -/

/-- Storing a list is storing its first part and then the rest. -/
theorem storeAll_append (cfg : Config) (desc : AccDesc) (l l' : List (Addr × Byte)) (m : Memory) :
    storeAll cfg desc (l ++ l') m = (storeAll cfg desc l m >>= storeAll cfg desc l') := by
  induction l generalizing m with
  | nil => rfl
  | cons q rest ih =>
    rw [List.cons_append, storeAll_cons, storeAll_cons, bind_assoc, funext ih]

/-- From the address of structure `e` on, the page's loop makes the stores of that structure and goes on at the next
structure's address, whether or not the element is active. -/
theorem pageLoop_cons {pl vl : Nat} (cfg : Config) (desc : AccDesc) (mask : BitVec pl) (v0 v1 : BitVec vl) (e : Nat)
    (es : List Nat) (addr0 : Addr) (m : Memory) :
    pageLoop cfg desc mask v0 v1 (e :: es) (structureAddress addr0 e 0 desc) m =
      (storeAll cfg desc (structureStores mask v0 v1 addr0 desc e) m >>=
        pageLoop cfg desc mask v0 v1 es (structureAddress addr0 (e + 1) 0 desc)) := by
  have hsecond : addressIncrement (structureAddress addr0 e 0 desc) 1 desc = structureAddress addr0 e 1 desc :=
    addressIncrement_addressIncrement ..
  have hnext : addressIncrement (structureAddress addr0 e 1 desc) 1 desc = structureAddress addr0 (e + 1) 0 desc :=
    addressIncrement_addressIncrement ..
  cases hactive : activePredicateElement mask e 8 with
  | false =>
    simp only [pageLoop, pageStore, structureStores, hactive, hsecond, hnext, Bool.false_eq_true, if_false,
      storeAll_nil, pure_bind, Result.ok_bind]
  | true =>
    simp only [pageLoop, pageStore, structureStores, hactive, hsecond, hnext, if_true, storeAll_cons, storeAll_nil,
      bind_assoc, pure_bind, Result.ok_bind]

/-- The loop over the elements from `k` on, begun at structure `k`'s address, against the closed form's stores of those
elements. -/
theorem pageLoop_range' {pl vl : Nat} (cfg : Config) (desc : AccDesc) (mask : BitVec pl) (v0 v1 : BitVec vl)
    (addr0 : Addr) (n k : Nat) (m : Memory) :
    pageLoop cfg desc mask v0 v1 (List.range' k n) (structureAddress addr0 k 0 desc) m =
      (storeAll cfg desc ((List.range' k n).flatMap (structureStores mask v0 v1 addr0 desc)) m).map
        (fun m' => (structureAddress addr0 (k + n) 0 desc, m')) := by
  induction n generalizing k m with
  | zero => rfl
  | succ n ih =>
    rw [List.range'_succ, pageLoop_cons, List.flatMap_cons, storeAll_append]
    cases storeAll cfg desc (structureStores mask v0 v1 addr0 desc k) m with
    | error e => rfl
    | ok m' =>
      rw [Result.ok_bind, Result.ok_bind, ih, Nat.succ_add_eq_add_succ]

/-- Settles O17: the loop over all elements, begun at structure 0's address, which is the start address. -/
theorem pageLoopAgreesWithClosedForm : Obligations.PageLoopAgreesWithClosedForm := by
  intro cfg desc pl vl n mask v0 v1 addr0 m
  have h := pageLoop_range' cfg desc mask v0 v1 addr0 n 0 m
  rw [structureAddress_zero, Nat.zero_add, ← List.range_eq_range'] at h
  exact h

/-! ## The steps before the store loop, one after another (R63 steps 1 to 6, R87 items 3 to 7) -/

section
variable {s : State} {draw : Bool} {zt pg : Nat} {base : BaseReg} {off : Int} {pv v0 v1 : ScalableBits} {b : Addr}

theorem readBase_of_value (h : s.baseAt base = some b) : readBase s base = .ok b := by
  rw [readBase_eq, h]

theorem readBase_of_none (h : s.baseAt base = none) :
    readBase s base = .error (.fault (.unwrittenRegister (baseRegName base))) := by
  rw [readBase_eq, h]

theorem readZ_of_value (h : s.zAt zt = some v0) : readZ s zt = .ok (BitVec.ofNat s.cfg.vl v0) := by
  rw [readZ_eq, h]

theorem readZ_of_none (h : s.zAt zt = none) : readZ s zt = .error (.fault (.unwrittenRegister (.z zt))) := by
  rw [readZ_eq, h]

/-- The check of the base on a stack pointer with a value (R68). -/
theorem checkBaseAlignment_sp {made : Bool} (h : s.sp = some b) :
    checkBaseAlignment .sp made s =
      if s.cfg.spAlignCheck = true ∧ b.toNat % 16 ≠ 0 ∧ made = true then .error (.fault .spAlignmentFault)
      else .ok () := by
  simp only [checkBaseAlignment_eq, h]

/-- Made or not, the check passes on a base that is no checked stack pointer, or an aligned one (R68). -/
theorem checkBaseAlignment_of_aligned {made : Bool} (hb : s.baseAt base = some b)
    (hal : base = .sp → s.cfg.spAlignCheck = true → b.toNat % 16 = 0) : checkBaseAlignment base made s = .ok () := by
  cases base with
  | x n => rfl
  | sp =>
    rw [checkBaseAlignment_sp hb, if_neg]
    rintro ⟨hon, hmisaligned, -⟩
    exact hmisaligned (hal rfl hon)

/-- Enabled, the steps begin with the read of `p[g]` (R63 step 3). -/
theorem planSt2b_of_predicate_none (hen : Enabled s.cfg) (hp : s.pAt pg = none) :
    planSt2b draw zt pg base off s = .error (.fault (.unwrittenRegister (.p pg))) := by
  rw [planSt2b, featureTest_eq_ok hen.1, checkSVEEnabled_eq, if_pos hen.2, readP_eq, hp]
  rfl

/-- Enabled and with a value in `p[g]`, what is left are the steps 4 to 6 of R63. -/
theorem planSt2b_of_predicate (hen : Enabled s.cfg) (hp : s.pAt pg = some pv) :
    planSt2b draw zt pg base off s = (do
      checkBaseAlignment base (anyActiveElement (BitVec.ofNat s.cfg.pl pv) 8 || draw) s
      let baseValue ← readBase s base
      let v0 ← readZ s zt
      let v1 ← readZ s (secondVector zt)
      return {
        desc := descSt2b base
        stores := interleavedStores s.cfg.elements (BitVec.ofNat s.cfg.pl pv) v0 v1
          (startAddress s.cfg baseValue off (descSt2b base)) (descSt2b base)
        draws := drawsUsed base (anyActiveElement (BitVec.ofNat s.cfg.pl pv) 8) }) := by
  rw [planSt2b, featureTest_eq_ok hen.1, checkSVEEnabled_eq, if_pos hen.2, readP_eq, hp]
  rfl

/-- A check that stops is what stops the plan, whatever the vector registers hold. -/
theorem planSt2b_of_check_error (hen : Enabled s.cfg) (hp : s.pAt pg = some pv) {e : Stop}
    (hc : checkBaseAlignment base (anyActiveElement (BitVec.ofNat s.cfg.pl pv) 8 || draw) s = .error e) :
    planSt2b draw zt pg base off s = .error e := by
  rw [planSt2b_of_predicate hen hp, hc, Result.error_bind]

/-- A fault of the steps before the store loop is the outcome of the instruction. -/
theorem exec_of_planSt2b_error {k : Fault}
    (h : planSt2b (Config.checkSpNoneActive s.draws) zt pg base off s = .error (.fault k)) :
    exec (.st2b zt pg base off) s = .fault k :=
  (execSt2b_eq_stop (e := .fault k)).2 (.inl h)

/-! ## When the checks stop it (R65, R68, R74, R83, R84, R87) -/

/-- ST2B takes the trap exactly when it is defined and access is trapped. -/
theorem exec_eq_sveAccessTrap (hf : s.cfg.featSve = true ∨ s.cfg.featSme = true) :
    exec (.st2b zt pg base off) s = .fault .sveAccessTrap ↔ s.cfg.sveAccess = .trap := by
  constructor
  · intro h
    rcases planSt2b_eq_error (planSt2b_eq_error_of_exec h (by simp)) with
      ⟨⟨⟩, -⟩ | ⟨-, htrap⟩ | ⟨⟨⟩, -⟩ | ⟨⟨⟩, -⟩ | ⟨⟨⟩, -⟩ | ⟨⟨⟩, -⟩ | ⟨⟨⟩, -⟩
    exact htrap
  · intro htrap
    apply exec_of_planSt2b_error
    rw [planSt2b, featureTest_eq_ok hf, checkSVEEnabled_eq, if_neg (by simp [htrap])]
    rfl

/-- Some element of the mask is active exactly when one of the register's is (R12, R67). -/
theorem anyActiveElement_iff {cfg : Config} :
    anyActiveElement (BitVec.ofNat cfg.pl pv) 8 = true ↔ ∃ e, ActiveIn cfg pv e := by
  rw [anyActiveElement_byte]
  exact exists_congr fun e => and_congr_right fun he => by rw [getLsbD_ofNat_of_lt he]

theorem anyActiveElement_eq_false {cfg : Config} (h : ∀ e, ¬ ActiveIn cfg pv e) :
    anyActiveElement (BitVec.ofNat cfg.pl pv) 8 = false :=
  eq_false_of_ne_true fun hany => (anyActiveElement_iff.1 hany).elim h

/-! ## With no active element (R68, R73, R77) -/

theorem interleavedStores_of_no_active {cfg : Config} {addr0 : Addr} {desc : AccDesc}
    (h : ∀ e, ¬ ActiveIn cfg pv e) :
    interleavedStores cfg.elements (BitVec.ofNat cfg.pl pv) (BitVec.ofNat cfg.vl v0) (BitVec.ofNat cfg.vl v1) addr0
      desc = [] := by
  refine List.eq_nil_iff_forall_not_mem.2 fun q hq => ?_
  obtain ⟨e, he, -⟩ := mem_stores_iff.1 hq
  exact h e he

/-- With no active element ST2B makes no store: what passes the draw's check completes over the same memory. -/
theorem st2b_of_no_active (hen : Enabled s.cfg) (hp : s.pAt pg = some pv) (hno : ∀ e, ¬ ActiveIn s.cfg pv e)
    (hb : s.baseAt base = some b) (h0 : s.zAt zt = some v0) (h1 : s.zAt (secondVector zt) = some v1)
    (hc : checkBaseAlignment base draw s = .ok ()) :
    st2b draw zt pg base off s = .ok (s.completed s.mem (drawsUsed base false)) := by
  have hplan : planSt2b draw zt pg base off s =
      .ok { desc := descSt2b base, stores := [], draws := drawsUsed base false } := by
    rw [planSt2b_of_predicate hen hp, anyActiveElement_eq_false hno, Bool.false_or, hc, readBase_of_value hb,
      readZ_of_value h0, readZ_of_value h1]
    simp only [Result.ok_bind, interleavedStores_of_no_active hno]
    rfl
  exact st2b_eq_ok.2 ⟨_, hplan, by simp, rfl⟩

end

/-- Settles O21, from `exec_eq_sveAccessTrap`. -/
theorem sveAccessTrapExactlyWhenTrapped : Obligations.SveAccessTrapExactlyWhenTrapped
  | .st2b _ _ _ _, _, hf => exec_eq_sveAccessTrap hf

/-- Settles O22: the active element makes the check, whatever the draw, and the check stops at the misaligned `sp`. -/
theorem misalignedSpWithActiveElementFaults : Obligations.MisalignedSpWithActiveElementFaults := by
  intro s zt pg off pv b e hen hp he hsp hon hmis
  apply exec_of_planSt2b_error
  apply planSt2b_of_check_error hen hp
  rw [anyActiveElement_iff.2 ⟨e, he⟩, checkBaseAlignment_sp hsp, if_pos ⟨hon, hmis, Bool.true_or _⟩]

/-- Settles O25: each clause passes the steps before it and stops at its own. -/
theorem checksAndReadsComeInTheSpecsOrder : Obligations.ChecksAndReadsComeInTheSpecsOrder := by
  intro s zt pg base off
  refine ⟨fun hsve hsme => exec_eq_undefined.2 ⟨hsve, hsme⟩, fun hf htrap => (exec_eq_sveAccessTrap hf).2 htrap,
    fun hen hp => exec_of_planSt2b_error (planSt2b_of_predicate_none hen hp), fun pv hen hp => ⟨?_, ?_, ?_⟩⟩
  · rintro rfl hsp
    apply exec_of_planSt2b_error
    apply planSt2b_of_check_error hen hp
    simp only [checkBaseAlignment_eq, hsp]
  · rintro n rfl hx
    apply exec_of_planSt2b_error
    rw [planSt2b_of_predicate hen hp, readBase_of_none (base := .x n) hx]
    rfl
  · intro b hb hal
    refine ⟨fun h0 => exec_of_planSt2b_error ?_, fun v0 h0 h1 => exec_of_planSt2b_error ?_⟩
    · rw [planSt2b_of_predicate hen hp, checkBaseAlignment_of_aligned hb hal, readBase_of_value hb, readZ_of_none h0]
      rfl
    · rw [planSt2b_of_predicate hen hp, checkBaseAlignment_of_aligned hb hal, readBase_of_value hb, readZ_of_value h0,
        readZ_of_none (zt := secondVector zt) h1]
      rfl

/-- Settles O9: a base `X0` to `X30` is not checked, and no draw is counted. -/
theorem noActiveElementOnlyAdvancesPc : Obligations.NoActiveElementOnlyAdvancesPc := by
  intro s zt pg n off pv v0 v1 b hen hp hno hx h0 h1
  exact congrArg Result.outcome (st2b_of_no_active (base := .x n) hen hp hno hx h0 h1 rfl)

/-- Settles O10: with no active element the draw alone says whether the check is made. -/
theorem noActiveElementDrawDecidesTheSpCheck : Obligations.NoActiveElementDrawDecidesTheSpCheck := by
  intro s zt pg off pv v0 v1 b hen hp hno hsp h0 h1
  refine ⟨fun draw => ?_, rfl⟩
  have hcheck := checkBaseAlignment_sp (made := draw) hsp
  split_ifs with hfault
  · rw [if_pos hfault] at hcheck
    have hplan : planSt2b draw zt pg .sp off s = .error (.fault .spAlignmentFault) := by
      apply planSt2b_of_check_error hen hp
      rw [anyActiveElement_eq_false hno, Bool.false_or, hcheck]
    rw [st2b, hplan]
    rfl
  · rw [if_neg hfault] at hcheck
    exact congrArg Result.outcome (st2b_of_no_active (base := .sp) hen hp hno hsp h0 h1 hcheck)

/-! ## The whole effect (R63, R72) -/

/-- Settles O8: the plan stands and its stores are clear; they go to different addresses, so each active byte is there
afterwards, and every other byte is as before by O12. -/
theorem st2bInterleavesActiveBytesAndCompletes : Obligations.St2bInterleavesActiveBytesAndCompletes := by
  intro s zt pg base off pv v0 v1 b hen hvl hwf hp hb h0 h1 hal hclear
  obtain ⟨plan, hplan, hmem⟩ : ∃ plan, planSt2b (Config.checkSpNoneActive s.draws) zt pg base off s = .ok plan ∧
      ∀ q, q ∈ plan.stores ↔ ∃ e, ActiveIn s.cfg pv e ∧ (q = (storeAddress s.cfg base b off e 0, registerByte v0 e) ∨
        q = (storeAddress s.cfg base b off e 1, registerByte v1 e)) :=
    ⟨_, planSt2b_of_valued hen hp hb h0 h1 hal, fun _ => mem_stores_iff⟩
  have hstores : ∀ q ∈ plan.stores, Clear s.cfg plan.desc q.1 := by
    intro q hq
    obtain ⟨e, r, he, hr, hqa⟩ := address_of_mem_stores hplan hp hb hq
    rw [planSt2b_desc hplan, hqa]
    exact hclear e r he hr
  have hnodup := nodup_plan_stores hplan hvl
  have hexec := execSt2b_eq_next.2 ⟨plan, hplan, hstores, rfl⟩
  refine ⟨_, hexec, s.sameRegisters_completed _ _, rfl, fun e he => ⟨?_, ?_⟩,
    completionKeepsBytesOutsideActiveStructures s _ zt pg base off pv b hexec hp hb⟩
  · exact Memory.read_writeAll_mem _ hwf hnodup ((hmem _).2 ⟨e, he, .inl rfl⟩)
  · exact Memory.read_writeAll_mem _ hwf hnodup ((hmem _).2 ⟨e, he, .inr rfl⟩)

/-! ## The byte that stops it (R71, R85, R87 item 8) -/

/-- The stores of the first `n` elements are the ones before structure `e`, that structure's and some more. -/
theorem interleavedStores_split {pl vl n e : Nat} (mask : BitVec pl) (v0 v1 : BitVec vl) (addr0 : Addr)
    (desc : AccDesc) (he : e < n) :
    ∃ rest, interleavedStores n mask v0 v1 addr0 desc =
      interleavedStores e mask v0 v1 addr0 desc ++ (structureStores mask v0 v1 addr0 desc e ++ rest) := by
  obtain ⟨k, rfl⟩ := Nat.exists_eq_add_of_lt he
  refine ⟨((List.range k).map (e + 1 + ·)).flatMap (structureStores mask v0 v1 addr0 desc), ?_⟩
  rw [← List.append_assoc, ← interleavedStores_succ, Nat.add_right_comm]
  simp only [interleavedStores, List.range_add, List.flatMap_append]

/-- The two stores of an active structure. -/
theorem structureStores_of_active {pl vl : Nat} {mask : BitVec pl} {v0 v1 : BitVec vl} {addr0 : Addr} {desc : AccDesc}
    {e : Nat} (h : mask.getLsbD e = true) :
    structureStores mask v0 v1 addr0 desc e = [(structureAddress addr0 e 0 desc, elementSlice v0 e 8),
      (structureAddress addr0 e 1 desc, elementSlice v1 e 8)] := by
  rw [structureStores, activePredicateElement_byte, if_pos h]

/-- Byte `r` of active structure `e` has its place among the stores, and only active bytes earlier in loop order stand
before it. -/
theorem interleavedStores_at {cfg : Config} {pv v0 v1 : ScalableBits} {addr0 : Addr} {desc : AccDesc} {e r : Nat}
    (he : ActiveIn cfg pv e) (hr : r < 2) :
    ∃ before byte after,
      interleavedStores cfg.elements (BitVec.ofNat cfg.pl pv) (BitVec.ofNat cfg.vl v0) (BitVec.ofNat cfg.vl v1) addr0
        desc = before ++ (structureAddress addr0 e r desc, byte) :: after ∧
      ∀ q ∈ before, ∃ e' r', ActiveIn cfg pv e' ∧ r' < 2 ∧ 2 * e' + r' < 2 * e + r ∧
        q.1 = structureAddress addr0 e' r' desc := by
  have hmask {e' : Nat} (hlt : e' < cfg.vl / 8) : (BitVec.ofNat cfg.pl pv).getLsbD e' = pv.testBit e' :=
    getLsbD_ofNat_of_lt hlt
  obtain ⟨rest, hsplit⟩ := interleavedStores_split (n := cfg.elements) (BitVec.ofNat cfg.pl pv)
    (BitVec.ofNat cfg.vl v0) (BitVec.ofNat cfg.vl v1) addr0 desc he.1
  rw [structureStores_of_active ((hmask he.1).trans he.2)] at hsplit
  have hearlier {q : Addr × Byte} (hq : q ∈ interleavedStores e (BitVec.ofNat cfg.pl pv) (BitVec.ofNat cfg.vl v0)
      (BitVec.ofNat cfg.vl v1) addr0 desc) : ∃ e' r', ActiveIn cfg pv e' ∧ r' < 2 ∧ 2 * e' + r' < 2 * e + r ∧
        q.1 = structureAddress addr0 e' r' desc := by
    obtain ⟨e', hlt, ha, hqe⟩ := mem_interleavedStores.1 hq
    have hlt' : e' < cfg.vl / 8 := hlt.trans he.1
    have he' : ActiveIn cfg pv e' := ⟨hlt', (hmask hlt').symm.trans ha⟩
    rcases hqe with rfl | rfl
    · exact ⟨e', 0, he', by omega, by omega, rfl⟩
    · exact ⟨e', 1, he', by omega, by omega, rfl⟩
  obtain rfl | rfl : r = 0 ∨ r = 1 := by omega
  · exact ⟨_, _, _, hsplit, fun q => hearlier⟩
  · rw [List.cons_append, List.append_cons] at hsplit
    refine ⟨_, _, _, hsplit, fun q hq => ?_⟩
    rcases List.mem_append.1 hq with hq | hq
    · exact hearlier hq
    · obtain rfl := List.mem_singleton.1 hq
      exact ⟨e, 0, he, by omega, by omega, rfl⟩

/-- Settles O24: the plan stands, and the given byte is its first store that is not clear, so that it stops the loop
with the stop of its address. -/
theorem firstUnclearByteDecidesTheStop : Obligations.FirstUnclearByteDecidesTheStop := by
  intro s zt pg base off pv v0 v1 b e r hen hp hb h0 h1 hal he hr hclear
  have hstop (hnot : ¬ Clear s.cfg (descSt2b base) (storeAddress s.cfg base b off e r)) :
      exec (.st2b zt pg base off) s = (stopAt s.cfg (storeAddress s.cfg base b off e r)).outcome := by
    obtain ⟨before, byte, after, hstores, hbefore⟩ := interleavedStores_at he hr
    refine execSt2b_eq_stop.2 (.inr ⟨_, planSt2b_of_valued hen hp hb h0 h1 hal, before, _, byte, after, hstores,
      fun q hq => ?_, hnot, rfl⟩)
    obtain ⟨e', r', he', hr', hlt, hqa⟩ := hbefore q hq
    rw [hqa]
    exact hclear e' r' he' hr' hlt
  refine ⟨fun hcovers => ?_, fun hcovers hrefused => ?_⟩
  · rw [hstop fun hc => by simp [hc.1] at hcovers, stopAt, if_pos hcovers]
    rfl
  · rw [hstop fun hc => by simp [hc.2] at hrefused, stopAt, if_neg (by simp [hcovers])]
    rfl

/-! ## Runs (R78, R103) -/

theorem SameRegisters.refl (s : State) : SameRegisters s s := ⟨rfl, rfl, rfl, rfl, rfl, rfl⟩

theorem SameRegisters.trans {s t u : State} (h : SameRegisters s t) (h' : SameRegisters t u) : SameRegisters s u := by
  obtain ⟨hcfg, hx, hsp, hz, hp, hr⟩ := h
  obtain ⟨hcfg', hx', hsp', hz', hp', hr'⟩ := h'
  exact ⟨hcfg'.trans hcfg, hx'.trans hx, hsp'.trans hsp, hz'.trans hz, hp'.trans hp, hr'.trans hr⟩

theorem reaches_zero {s t : State} : Reaches 0 s t ↔ s = t := by
  constructor
  · rintro ⟨⟩
    rfl
  · rintro rfl
    rfl

/-- A run of `k + 1` completed steps is one completed step and a run of `k` from where it leads. -/
theorem reaches_succ {k : Nat} {s t : State} : Reaches (k + 1) s t ↔ ∃ u, step s = .next u ∧ Reaches k u t := by
  cases h : step s with
  | next u => simp [Reaches, Host.Core.run, show Sys2Proof.core.step s = .next u from h]
  | fault k => simp [Reaches, Host.Core.run, show Sys2Proof.core.step s = .fault k from h]
  | refused r => simp [Reaches, Host.Core.run, show Sys2Proof.core.step s = .refused r from h]

/-- Settles O45, by induction over the run: each step is a completion. -/
theorem runKeepsRegistersAndAdvancesPcByFour : Obligations.RunKeepsRegistersAndAdvancesPcByFour := by
  intro k
  induction k with
  | zero =>
    intro s t h
    obtain rfl := reaches_zero.1 h
    exact ⟨.refl s, (BitVec.add_zero s.pc).symm⟩
  | succ k ih =>
    intro s t h
    obtain ⟨u, hstep, hrun⟩ := reaches_succ.1 h
    obtain ⟨writes, d, rfl⟩ := step_next_completed hstep
    obtain ⟨hregs, hpc⟩ := ih _ t hrun
    refine ⟨(s.sameRegisters_completed _ d).trans hregs, ?_⟩
    rw [hpc, State.completed_pc]
    bv_omega

end Sys2Proof.Machine
end

section
/-! SUPPORT. Exceptions (spec/60_exceptions.md R81 to R97): which stops ST2B has and where, the state a stopped run rests
in, and what the host sees of it. -/

namespace Sys2Proof.Machine

/-! ## The stops of ST2B (R81, R82, R85 to R87) -/

/-- Settles O20: a decoded word is ST2B, and only its feature test raises `Undefined`. -/
theorem undefinedExactlyWithoutBothFeatures : Obligations.UndefinedExactlyWithoutBothFeatures
  | _, .st2b _ _ _ _, _, _ => exec_eq_undefined

/-- A stop that the steps before the store loop do not give is that of a byte of an active structure whose address is not
clear (R71, R87 item 8). -/
theorem store_of_exec_eq_stop {zt pg : Nat} {base : BaseReg} {off : Int} {s : State} {e : Stop}
    (h : exec (.st2b zt pg base off) s = e.outcome)
    (hplan : planSt2b (Config.checkSpNoneActive s.draws) zt pg base off s ≠ .error e) :
    ∃ a, e = stopAt s.cfg a ∧ ¬ Clear s.cfg (descSt2b base) a ∧
      ∃ pv b n r, s.pAt pg = some pv ∧ s.baseAt base = some b ∧ ActiveIn s.cfg pv n ∧ r < 2 ∧
        a = storeAddress s.cfg base b off n r := by
  rcases execSt2b_eq_stop.1 h with herr | ⟨plan, hok, _, a, byte, _, hstores, -, hunclear, he⟩
  · exact absurd herr hplan
  · obtain ⟨-, pv, b, -, -, hp, hb, -⟩ := planSt2b_ok_contents hok
    have hmem : (a, byte) ∈ plan.stores := by simp [hstores]
    obtain ⟨n, r, hn, hr, ha⟩ := address_of_mem_stores hok hp hb hmem
    rw [planSt2b_desc hok] at hunclear
    exact ⟨a, he, hunclear, pv, b, n, r, hp, hb, hn, hr, ha⟩

/-- The steps before the store loop access no memory, so that none of them aborts (R87 items 3 to 7). -/
theorem planSt2b_ne_dataAbort {draw : Bool} {zt pg : Nat} {base : BaseReg} {off : Int} {s : State} (a : Addr) :
    planSt2b draw zt pg base off s ≠ .error (.fault (.dataAbort a)) := by
  intro h
  rcases planSt2b_eq_error h with ⟨⟨⟩, -⟩ | ⟨⟨⟩, -⟩ | ⟨⟨⟩, -⟩ | ⟨⟨⟩, -⟩ | ⟨⟨⟩, -⟩ | ⟨⟨⟩, -⟩ | ⟨⟨⟩, -⟩

/-- Settles O26: the one refusal of an instruction is that of a store; a data abort and that refusal come from the store
loop, at the address they name. -/
theorem instructionStopsOnlyForItsOwnReasons : Obligations.InstructionStopsOnlyForItsOwnReasons := by
  intro s zt pg base off
  have honly : ∀ r, (∀ a, r ≠ .storeToProgramText a) → exec (.st2b zt pg base off) s ≠ .refused r := fun r hr h =>
    (exec_eq_refused h).elim hr
  refine ⟨exec_ne_pcAlignment _ s, honly _ (by simp), fun w => honly _ (by simp), fun n => honly _ (by simp), ?_⟩
  rintro a (h | h)
  · obtain ⟨_, hstop, hstore⟩ := store_of_exec_eq_stop (e := .fault (.dataAbort a)) h (planSt2b_ne_dataAbort a)
    obtain rfl := Fault.dataAbort.inj (stopAt_eq_fault hstop.symm)
    exact hstore
  · obtain ⟨_, hstop, hstore⟩ :=
      store_of_exec_eq_stop (e := .refuse (.storeToProgramText a)) h (planSt2b_ne_refuse _)
    obtain rfl := Refusal.storeToProgramText.inj (stopAt_eq_refuse hstop.symm)
    exact hstore

/-! ## The bytes a stop leaves unspecified (R88, D16; log 14) -/

/-- A fault that is no data abort leaves no byte unspecified (R88). -/
theorem unspecifiedAfter_of_ne_dataAbort {k : Fault} (hk : ∀ a, k ≠ .dataAbort a) (s : State) :
    unspecifiedAfter (.fault k) s = [] := by
  cases k with
  | dataAbort a => exact absurd rfl (hk a)
  | undefined | sveAccessTrap | spAlignmentFault | pcAlignment | unwrittenRegister => rfl

/-- A data abort leaves unspecified what the fetched instruction would have stored to (R88). -/
theorem unspecifiedAfter_dataAbort {s : State} {i : Instr} (h : fetchInstr s = .ok i) (a : Addr) :
    unspecifiedAfter (.fault (.dataAbort a)) s = activeAddresses i s := by
  simp [unspecifiedAfter, h]

/-- The active addresses of ST2B are bytes of its active structures (R71, R88). -/
theorem address_of_mem_activeAddresses {zt pg : Nat} {base : BaseReg} {off : Int} {s : State} {pv : ScalableBits}
    {b : Addr} (hp : s.pAt pg = some pv) (hb : s.baseAt base = some b) {a : Addr}
    (ha : a ∈ activeAddresses (.st2b zt pg base off) s) :
    ∃ e r, ActiveIn s.cfg pv e ∧ r < 2 ∧ a = storeAddress s.cfg base b off e r := by
  unfold activeAddresses at ha
  cases hplan : planSt2b (Config.checkSpNoneActive s.draws) zt pg base off s with
  | error e => simp [hplan] at ha
  | ok plan =>
    simp only [hplan] at ha
    obtain ⟨q, hq, rfl⟩ := List.mem_map.1 ha
    exact address_of_mem_stores hplan hp hb hq

/-! ## The state a stopped run rests in (R81, R91, R101) -/

theorem afterStep_of_recorded (free : Addr → Byte) {s : State} {e : Stop} (h : s.recorded = some e) :
    afterStep free s = s := by
  simp [afterStep, h]

theorem afterStep_of_fault (free : Addr → Byte) {s : State} {k : Fault} (hr : s.recorded = none)
    (h : step s = .fault k) : afterStep free s = s.recordStop free (.fault k) := by
  simp [afterStep, hr, h]

theorem isFinal_of_recorded {s : State} {e : Stop} (h : s.recorded = some e) : s.isFinal = false := by
  simp [State.isFinal, h]

theorem runFor_of_recorded (free : Addr → Byte) {s : State} {e : Stop} (h : s.recorded = some e) (n : Nat) :
    runFor free n s = s := by
  induction n with
  | zero => rfl
  | succ n ih => rw [runFor, afterStep_of_recorded free h, ih]

/-- Settles O40: `step` and `afterStep` look at the recorded stop before anything else. -/
theorem recordedStopIsPermanent : Obligations.RecordedStopIsPermanent :=
  fun _ _ free n h => ⟨step_of_recorded h, runFor_of_recorded free h n, isFinal_of_recorded h⟩

/-- Recording a stop leaves all that the host can read back, but memory, as it was (R81, R91). -/
theorem State.recordStop_image (free : Addr → Byte) (e : Stop) (s : State) :
    (s.recordStop free e).image = { s.image with mem := (s.recordStop free e).mem } := rfl

/-- Only a data abort changes memory (R88). -/
theorem State.recordStop_mem_of_ne_dataAbort (free : Addr → Byte) {k : Fault} (hk : ∀ a, k ≠ .dataAbort a) (s : State) :
    (s.recordStop free (.fault k)).mem = s.mem := by
  rw [State.recordStop_mem, unspecifiedAfter_of_ne_dataAbort hk, Memory.writeFree]

/-- Settles O41: a fault rests in the state with the stop recorded; there the free bytes of a data abort are bytes of
active structures, and any other fault has none. -/
theorem faultKeepsRegistersPcAndOtherBytes : Obligations.FaultKeepsRegistersPcAndOtherBytes := by
  intro s k free hr hstep
  rw [afterStep_of_fault free hr hstep]
  refine ⟨State.recordStop_recorded .., State.recordStop_image .., State.recordStop_cfg ..,
    fun hk => State.recordStop_mem_of_ne_dataAbort free hk s, fun zt pg base off pv b hi hp hb a ha => ?_⟩
  by_cases hk : ∀ a', k ≠ .dataAbort a'
  · rw [State.recordStop_mem_of_ne_dataAbort free hk]
  · push Not at hk
    obtain ⟨a', rfl⟩ := hk
    refine State.recordStop_read_other free _ s fun hmem => ?_
    rw [unspecifiedAfter_dataAbort hi] at hmem
    obtain ⟨e, r, he, hlt, haddr⟩ := address_of_mem_activeAddresses hp hb hmem
    exact ha e r he hlt haddr

/-! ## What the host sees of a stop (R107 item 3) -/

/-- Of a state with a recorded stop the host sees the stop alone. -/
theorem hostView_of_recorded {s : State} {e : Stop} (h : s.recorded = some e) :
    s.hostView = { outcome := some e, image := none } := by
  simp [State.hostView, h, isFinal_of_recorded h]

/-- Settles O42: either way the run rests in a state with a recorded stop, of which the host sees no byte. -/
theorem unspecifiedBytesAreNeverSeen : Obligations.UnspecifiedBytesAreNeverSeen := by
  intro s k free free' hstep
  cases hr : s.recorded with
  | some e => rw [afterStep_of_recorded free hr, afterStep_of_recorded free' hr]
  | none =>
    have hview : ∀ f, (afterStep f s).hostView = { outcome := some (.fault k), image := none } := fun f =>
      hostView_of_recorded (by rw [afterStep_of_fault f hr hstep, State.recordStop_recorded])
    rw [hview, hview]

end Sys2Proof.Machine
end

section
/-! SUPPORT. Reset, launch and the ends of a run (spec/70_reset_and_hazards.md R98 to R107): what completion shows of
the state before, which states have no step, where a run over a block ends, and the invariant at a run's beginning. -/

/-! ## The end of a block (R100, R106) -/

namespace Sys2Proof

/-- A block that does not meet itself has no word just past its last one, across a wrap too (R100). -/
theorem ProgramText.wordAt_block_end {ws : List Word32} (b : Addr) (hlen : ws.length < 2 ^ 62) :
    (ProgramText.block b ws).wordAt (b + BitVec.ofNat 64 (4 * ws.length)).toNat = none := by
  induction ws generalizing b with
  | nil => rfl
  | cons w rest ih =>
    rw [List.length_cons] at hlen ⊢
    have hnext : b + BitVec.ofNat 64 (4 * (rest.length + 1)) = b + 4 + BitVec.ofNat 64 (4 * rest.length) := by
      bv_omega
    rw [ProgramText.block, ProgramText.wordAt_put, if_neg (add_ofNat_toNat_ne b (by omega) (by omega)), hnext]
    exact ih (b + 4) (by omega)

end Sys2Proof

namespace Sys2Proof.Machine

/-! ## What completion shows (R99) -/

/-- A plan has a store for either byte of each active structure (R63, R71). -/
theorem exists_mem_stores_of_active {draw : Bool} {zt pg : Nat} {base : BaseReg} {off : Int} {s : State}
    {plan : StorePlan} {pv : ScalableBits} {b : Addr} {e r : Nat} (h : planSt2b draw zt pg base off s = .ok plan)
    (hp : s.pAt pg = some pv) (hb : s.baseAt base = some b) (he : ActiveIn s.cfg pv e) (hr : r < 2) :
    ∃ byte, (storeAddress s.cfg base b off e r, byte) ∈ plan.stores := by
  obtain ⟨-, pv', b', v0, v1, hp', hb', -, -, rfl⟩ := planSt2b_ok_contents h
  cases hp.symm.trans hp'
  cases hb.symm.trans hb'
  obtain rfl | rfl : r = 0 ∨ r = 1 := by omega
  · exact ⟨registerByte v0 e, mem_stores_iff.2 ⟨e, he, .inl rfl⟩⟩
  · exact ⟨registerByte v1 e, mem_stores_iff.2 ⟨e, he, .inr rfl⟩⟩

/-- Settles O28: completion has a plan, which shows the operands' contents, and its stores are clear; a misaligned `sp`
would have faulted by O22. -/
theorem completionNeedsFeatureEnableValuesClearBytesAndAlignment :
    Obligations.CompletionNeedsFeatureEnableValuesClearBytesAndAlignment := by
  intro s t zt pg base off h
  obtain ⟨plan, hplan, hclear, -⟩ := execSt2b_eq_next.1 h
  obtain ⟨hen, pv, b, v0, v1, hp, hb, h0, h1, -⟩ := planSt2b_ok_contents hplan
  refine ⟨hen, Option.isSome_of_eq_some h0, Option.isSome_of_eq_some h1, pv, b, hp, hb, fun e r he hr => ?_, ?_⟩
  · obtain ⟨byte, hmem⟩ := exists_mem_stores_of_active hplan hp hb he hr
    rw [← planSt2b_desc hplan]
    exact hclear _ hmem
  · rintro ⟨e, he⟩ rfl hon
    by_contra hmis
    have hfault := misalignedSpWithActiveElementFaults s zt pg off pv b e hen hp he hb hon hmis
    cases h.symm.trans hfault

/-! ## Final states (R101, D23; log 12) -/

theorem State.isFinal_iff {s : State} :
    s.isFinal = true ↔ (s.pc.toNat % 4 = 0 ∧ s.cfg.programText.wordAt s.pc.toNat = none) ∧ s.recorded = none := by
  simp [State.isFinal, pcMisaligned_eq_false_iff]

/-- Fetch and decode find no step exactly at an aligned `pc` outside `ProgramText` (R101). -/
theorem fetchInstr_eq_endOfRun {s : State} :
    fetchInstr s = .error (.refuse .endOfRun) ↔
      s.pc.toNat % 4 = 0 ∧ s.cfg.programText.wordAt s.pc.toNat = none := by
  rw [fetchInstr, Result.bind_eq_error, fetch_eq_error]
  simp [decodeStep_eq_error, pcMisaligned_eq_false_iff]

/-- Only the fetch answers that there is no step: an instruction refuses nothing but a store into `ProgramText`. -/
theorem step_eq_endOfRun {s : State} (hr : s.recorded = none) :
    step s = .refused .endOfRun ↔ fetchInstr s = .error (.refuse .endOfRun) := by
  cases hi : fetchInstr s with
  | error e =>
    rw [step_of_no_fetch hr hi, Except.error.injEq]
    exact Stop.outcome_inj (e' := .refuse .endOfRun)
  | ok i =>
    rw [step_of_fetch hr hi]
    refine iff_of_false (fun h => ?_) (by simp)
    obtain ⟨a, ⟨⟩⟩ := exec_eq_refused h

/-- Settles O39, from `step_eq_endOfRun` and `fetchInstr_eq_endOfRun`. -/
theorem finalStatesHaveNoStep : Obligations.FinalStatesHaveNoStep := by
  intro s hr
  rw [step_eq_endOfRun hr, fetchInstr_eq_endOfRun, State.isFinal_iff]
  exact ⟨Iff.rfl, and_iff_left hr⟩

/-! ## A run until it ends (R101, R102, R106) -/

theorem stopped_of_recorded {s : State} {e : Stop} (h : s.recorded = some e) : Stopped s :=
  .inr (Option.isSome_of_eq_some h)

/-- A state without a step stays as it is (R101). -/
theorem afterStep_of_stopped (free : Addr → Byte) {s : State} (h : Stopped s) : afterStep free s = s := by
  rcases h with hfinal | hrec
  · have hr := (State.isFinal_iff.1 hfinal).2
    simp [afterStep, hr, (finalStatesHaveNoStep s hr).2.1 hfinal]
  · obtain ⟨e, he⟩ := Option.isSome_iff_exists.1 hrec
    exact afterStep_of_recorded free he

theorem runFor_of_stopped (free : Addr → Byte) {s : State} (h : Stopped s) (n : Nat) : runFor free n s = s := by
  induction n with
  | zero => rfl
  | succ n ih => rw [runFor, afterStep_of_stopped free h, ih]

theorem afterStep_of_next (free : Addr → Byte) {s t : State} (h : step s = .next t) : afterStep free s = t := by
  simp [afterStep, (step_eq_next.1 h).1, h]

theorem afterStep_of_refused (free : Addr → Byte) {s : State} {r : Refusal} (hr : s.recorded = none)
    (h : step s = .refused r) (hne : r ≠ .endOfRun) : afterStep free s = s.recordStop free (.refuse r) := by
  cases r with
  | endOfRun => exact absurd rfl hne
  | notModelled _ | notInSpec _ | storeToProgramText _ => simp [afterStep, hr, h]

/-- What one attempted step can lead to: a state without a step, or the completion of an instruction (R81, R101). -/
theorem afterStep_stopped_or_completed (free : Addr → Byte) (s : State) :
    Stopped (afterStep free s) ∨ ∃ m d, afterStep free s = s.completed m d := by
  cases hr : s.recorded with
  | some e =>
    rw [afterStep_of_recorded free hr]
    exact .inl (stopped_of_recorded hr)
  | none =>
    cases hstep : step s with
    | next t =>
      obtain ⟨writes, d, rfl⟩ := step_next_completed hstep
      exact .inr ⟨_, d, afterStep_of_next free hstep⟩
    | fault k =>
      rw [afterStep_of_fault free hr hstep]
      exact .inl (stopped_of_recorded (State.recordStop_recorded ..))
    | refused r =>
      by_cases hend : r = .endOfRun
      · subst hend
        have hstop : Stopped s := .inl ((finalStatesHaveNoStep s hr).2.2 hstep)
        rw [afterStep_of_stopped free hstop]
        exact .inl hstop
      · rw [afterStep_of_refused free hr hstep hend]
        exact .inl (stopped_of_recorded (State.recordStop_recorded ..))

/-- After `n` attempted steps a run has ended, or has come `n` words further under the same configuration (R73, R78). -/
theorem runFor_stopped_or_advanced (free : Addr → Byte) (n : Nat) (s : State) :
    Stopped (runFor free n s) ∨
      (runFor free n s).cfg = s.cfg ∧ (runFor free n s).pc = s.pc + BitVec.ofNat 64 (4 * n) := by
  induction n generalizing s with
  | zero => exact .inr ⟨rfl, (BitVec.add_zero s.pc).symm⟩
  | succ n ih =>
    rw [runFor]
    rcases afterStep_stopped_or_completed free s with hstop | ⟨m, d, hnext⟩
    · rw [runFor_of_stopped free hstop]
      exact .inl hstop
    · rw [hnext]
      refine (ih (s.completed m d)).imp_right fun ⟨hcfg, hpc⟩ => ⟨hcfg, ?_⟩
      rw [hpc, State.completed_pc]
      bv_omega

/-- Settles O46: a run that did not end before the block's end stands just past its last word, where no word is. -/
theorem blockRunEndsWithinItsLength : Obligations.BlockRunEndsWithinItsLength := by
  intro s ws free hpc hlen htext
  rcases runFor_stopped_or_advanced free ws.length s with hstop | ⟨hcfg, hend⟩
  · exact hstop
  · cases hr : (runFor free ws.length s).recorded with
    | some e => exact stopped_of_recorded hr
    | none =>
      refine .inl (State.isFinal_iff.2 ⟨⟨?_, ?_⟩, hr⟩)
      · rw [hend]
        bv_omega
      · rw [hcfg, htext, hend]
        exact ProgramText.wordAt_block_end s.pc hlen

/-! ## Where a run begins (R28, R98, D20) -/

/-- What the invariant needs of a permitted launch state: an aligned `pc` and canonical memory. -/
theorem LaunchState.aligned_and_canonical_of_wf {cfg : Config} {l : LaunchState} (h : l.wf cfg = true) :
    pcMisaligned l.pc = false ∧ l.mem.wf = true := by
  simp only [LaunchState.wf, Bool.and_eq_true, Bool.not_eq_true'] at h
  obtain ⟨⟨hlaunch, -⟩, -⟩ := h
  exact hlaunch

/-- Settles O44: the parts of the invariant are parts of what a launch must meet, and reset is a closed case. -/
theorem resetAndLaunchMeetTheInvariant : Obligations.ResetAndLaunchMeetTheInvariant :=
  ⟨by decide, fun _ _ hcfg hl => State.inv_iff.2 ⟨hcfg, LaunchState.aligned_and_canonical_of_wf hl⟩⟩

/-- Settles O49: the empty `ProgramText` makes the reset state final, and O39 says that a final state has no step. -/
theorem resetWaitsForAProgram : Obligations.ResetWaitsForAProgram :=
  have hfinal : State.reset.isFinal = true := State.isFinal_iff.2 ⟨⟨rfl, rfl⟩, rfl⟩
  ⟨(finalStatesHaveNoStep State.reset rfl).2.1 hfinal, hfinal⟩

end Sys2Proof.Machine
end

section
/-! SUPPORT. The encoding vectors of spec/95_test_vectors.md 2.1. -/

namespace Sys2Proof

/-- The word a well-formed instruction is encoded as decodes to that instruction (R51, R52). -/
theorem decodeWord_of_encode_eq {w : Word32} {i : Instr} (hwf : i.wf = true) (hw : encode i = w) :
    decodeWord w = .ok i :=
  hw ▸ decodeWord_encode hwf

/-- Settles O5: each word is the encoding of its well-formed instruction, so it decodes to it. -/
theorem vectorWordsDecode : Obligations.VectorWordsDecode := by
  refine ⟨?e1, ?e2, ?e4, ?e5, ?e9⟩
  case e1 => exact decodeWord_of_encode_eq (by decide) (by decide)
  case e2 => exact decodeWord_of_encode_eq (by decide) (by decide)
  case e4 => exact decodeWord_of_encode_eq (by decide) (by decide)
  case e5 => exact decodeWord_of_encode_eq (by decide) (by decide)
  case e9 => exact decodeWord_of_encode_eq (by decide) (by decide)

end Sys2Proof
end
